-- ==== Sys2Proof/Word.lean ====
section
/-! DEFINITION. The machine's word and the byte its memory cells are made of. -/

namespace Sys2Proof

/-- A Word: "16-bit unit of memory/register storage" (00_scope.md R8, R10). -/
abbrev Word := BitVec 16

/-- Half a Word. No instruction sees one (20_memory.md R63, R64): only memory cells and load images hold them. -/
abbrev Byte := BitVec 8

end Sys2Proof
end

