-- ==== Sys2Proof/Syntax.lean ====
section
/-! DEFINITION. The instructions: general registers, the operand forms of 30_encoding.md R85, and one constructor per row of
spec/opcode_table.json (30_encoding.md R87, R88). A next word an operand consumes is part of the operand. -/

namespace Sys2Proof

/-- The general registers in index order (10_state.md R30). -/
inductive Reg where
  | a | b | c | x | y | z | i | j
  deriving DecidableEq, Repr

/-- The operand forms (30_encoding.md R85). One type serves both fields; which forms the `b` field can spell is a check of
WellFormed. -/
inductive Operand where
  /-- Codes 0x00 to 0x07: a register. -/
  | reg (r : Reg)
  /-- Codes 0x08 to 0x0f: `[register]`. -/
  | ind (r : Reg)
  /-- Codes 0x10 to 0x17: `[register + next word]`. -/
  | indOff (r : Reg) (n : Word)
  /-- Code 0x18: POP as the `a` operand, PUSH as the `b` operand. -/
  | stack
  /-- Code 0x19: `[SP]`, peek. -/
  | peek
  /-- Code 0x1a: `[SP + next word]`. -/
  | pick (n : Word)
  /-- Code 0x1b: the SP pseudo-register. -/
  | sp
  /-- Code 0x1c: the PC pseudo-register. -/
  | pc
  /-- Code 0x1d: the EX pseudo-register. -/
  | ex
  /-- Code 0x1e: `[next word]`. -/
  | abs (n : Word)
  /-- Code 0x1f: the literal in the next word. -/
  | lit (n : Word)
  /-- Codes 0x20 to 0x3f, `a` only: the inlined literal, `k` being the code's low five bits. -/
  | short (k : BitVec 5)
  deriving DecidableEq, Repr

/-- The instructions, one constructor per row of the opcode table. `b` is the destination-side operand and `a` the
source-side operand (00_scope.md R19); a special operation has `a` only. -/
inductive Instr where
  | set (b a : Operand)
  | add (b a : Operand)
  | sub (b a : Operand)
  | mul (b a : Operand)
  | mli (b a : Operand)
  | div (b a : Operand)
  | dvi (b a : Operand)
  | mod (b a : Operand)
  | mdi (b a : Operand)
  | and (b a : Operand)
  | bor (b a : Operand)
  | xor (b a : Operand)
  | shr (b a : Operand)
  | asr (b a : Operand)
  | shl (b a : Operand)
  | ifb (b a : Operand)
  | ifc (b a : Operand)
  | ife (b a : Operand)
  | ifn (b a : Operand)
  | ifg (b a : Operand)
  | ifa (b a : Operand)
  | ifl (b a : Operand)
  | ifu (b a : Operand)
  | adx (b a : Operand)
  | sbx (b a : Operand)
  | sti (b a : Operand)
  | std (b a : Operand)
  | jsr (a : Operand)
  | int (a : Operand)
  | iag (a : Operand)
  | ias (a : Operand)
  | rfi (a : Operand)
  | iaq (a : Operand)
  | hwn (a : Operand)
  | hwq (a : Operand)
  | hwi (a : Operand)
  deriving DecidableEq, Repr

end Sys2Proof
end

