-- ==== Sys2Proof/WellFormed.lean ====
section
/-! DEFINITION. Which instruction terms an encoding can spell. The one restriction is that the 5-bit `b` field cannot hold an
inlined literal (30_encoding.md R85: "only legal as `a`-operand"); every other combination is legal (R91). -/

namespace Sys2Proof

/-- The operand forms the 5-bit `b` field can spell (30_encoding.md R85): all but the inlined literal. -/
def Operand.legalAsB : Operand → Bool
  | .short _ => false
  | .reg _ | .ind _ | .indOff _ _ | .stack | .peek | .pick _ | .sp | .pc | .ex | .abs _ | .lit _ => true

/-- The operand in an instruction's `b` field; a special operation has none (30_encoding.md R82). -/
def Instr.bOperand : Instr → Option Operand
  | .set b _ | .add b _ | .sub b _ | .mul b _ | .mli b _ | .div b _ | .dvi b _ | .mod b _ | .mdi b _ => some b
  | .and b _ | .bor b _ | .xor b _ | .shr b _ | .asr b _ | .shl b _ => some b
  | .ifb b _ | .ifc b _ | .ife b _ | .ifn b _ | .ifg b _ | .ifa b _ | .ifl b _ | .ifu b _ => some b
  | .adx b _ | .sbx b _ | .sti b _ | .std b _ => some b
  | .jsr _ | .int _ | .iag _ | .ias _ | .rfi _ | .iaq _ | .hwn _ | .hwq _ | .hwi _ => none

/-- The operand in an instruction's `a` field; every instruction has one (30_encoding.md R81, R82). -/
def Instr.aOperand : Instr → Operand
  | .set _ a | .add _ a | .sub _ a | .mul _ a | .mli _ a | .div _ a | .dvi _ a | .mod _ a | .mdi _ a => a
  | .and _ a | .bor _ a | .xor _ a | .shr _ a | .asr _ a | .shl _ a => a
  | .ifb _ a | .ifc _ a | .ife _ a | .ifn _ a | .ifg _ a | .ifa _ a | .ifl _ a | .ifu _ a => a
  | .adx _ a | .sbx _ a | .sti _ a | .std _ a => a
  | .jsr a | .int a | .iag a | .ias a | .rfi a | .iaq a | .hwn a | .hwq a | .hwi a => a

/-- An instruction is well formed when its `b` operand, if it has one, is a form the `b` field can spell. -/
def Instr.wf (i : Instr) : Bool :=
  match i.bOperand with
  | some b => b.legalAsB
  | none => true

end Sys2Proof
end

