-- ==== Sys2Proof/Decode.lean ====
section
/-! DEFINITION. The instruction words: the decoder, total on any list of Words and rejecting by name (30_encoding.md R80 to R92),
and the encoder, its inverse (R93). Both are written from the tables of R85, R87 and R88. -/

namespace Sys2Proof

/-! ## Fields of the instruction word (30_encoding.md R81, R82, R86) -/

/-- The opcode `o`, bits 4..0. -/
def opField (w : Word) : Nat := w.toNat % 32

/-- The `b` operand code, or the special opcode `s`, bits 9..5. -/
def bField (w : Word) : Nat := w.toNat / 32 % 32

/-- The `a` operand code, bits 15..10. -/
def aField (w : Word) : Nat := w.toNat / 1024

/-- Does operand code `c` consume a next word (30_encoding.md R83)? -/
def codeTakesWord (c : Nat) : Bool :=
  (0x10 ≤ c && c < 0x18) || c == 0x1a || c == 0x1e || c == 0x1f

/-- How many next words follow the instruction word `w` (30_encoding.md R83). It depends on `w` alone, so the words of an
unsupported operation have a length too. -/
def nextWordCount (w : Word) : Nat :=
  let na := if codeTakesWord (aField w) then 1 else 0
  let nb := if codeTakesWord (bField w) then 1 else 0
  if opField w = 0 then na else na + nb

/-! ## Decoding -/

/-- Why a list of Words is no instruction. -/
inductive Reject where
  /-- A basic opcode with no operation (30_encoding.md R89). -/
  | unsupportedBasic (o : Nat)
  /-- A special opcode with no operation (30_encoding.md R90). -/
  | unsupportedSpecial (s : Nat)
  /-- The list ends before the instruction's words do. The engine, which fetches them all, never meets it. -/
  | truncated
  deriving DecidableEq, Repr

/-- The register of a register field: "`code mod 8`" (30_encoding.md R85, 10_state.md R30). -/
def Reg.ofIndex (n : Nat) : Reg :=
  match n % 8 with
  | 0 => .a
  | 1 => .b
  | 2 => .c
  | 3 => .x
  | 4 => .y
  | 5 => .z
  | 6 => .i
  | _ => .j

/-- The operand that code `c` spells (30_encoding.md R85), its next word, if it takes one, being the head of `ws`; answers the
operand and the Words left. -/
def operandOfCode (c : Nat) (ws : List Word) : Except Reject (Operand × List Word) :=
  if c < 0x08 then .ok (.reg (Reg.ofIndex c), ws)
  else if c < 0x10 then .ok (.ind (Reg.ofIndex c), ws)
  else if c = 0x18 then .ok (.stack, ws)
  else if c = 0x19 then .ok (.peek, ws)
  else if c = 0x1b then .ok (.sp, ws)
  else if c = 0x1c then .ok (.pc, ws)
  else if c = 0x1d then .ok (.ex, ws)
  else if 0x20 ≤ c then .ok (.short (BitVec.ofNat 5 (c - 0x20)), ws)
  else
    match ws with
    | [] => .error .truncated
    | n :: rest =>
      if c < 0x18 then .ok (.indOff (Reg.ofIndex c) n, rest)
      else if c = 0x1a then .ok (.pick n, rest)
      else if c = 0x1e then .ok (.abs n, rest)
      else .ok (.lit n, rest)

/-- The basic opcode map (30_encoding.md R87). -/
def basicOfOpcode (o : Nat) (b a : Operand) : Except Reject Instr :=
  match o with
  | 0x01 => .ok (.set b a)
  | 0x02 => .ok (.add b a)
  | 0x03 => .ok (.sub b a)
  | 0x04 => .ok (.mul b a)
  | 0x05 => .ok (.mli b a)
  | 0x06 => .ok (.div b a)
  | 0x07 => .ok (.dvi b a)
  | 0x08 => .ok (.mod b a)
  | 0x09 => .ok (.mdi b a)
  | 0x0a => .ok (.and b a)
  | 0x0b => .ok (.bor b a)
  | 0x0c => .ok (.xor b a)
  | 0x0d => .ok (.shr b a)
  | 0x0e => .ok (.asr b a)
  | 0x0f => .ok (.shl b a)
  | 0x10 => .ok (.ifb b a)
  | 0x11 => .ok (.ifc b a)
  | 0x12 => .ok (.ife b a)
  | 0x13 => .ok (.ifn b a)
  | 0x14 => .ok (.ifg b a)
  | 0x15 => .ok (.ifa b a)
  | 0x16 => .ok (.ifl b a)
  | 0x17 => .ok (.ifu b a)
  | 0x1a => .ok (.adx b a)
  | 0x1b => .ok (.sbx b a)
  | 0x1e => .ok (.sti b a)
  | 0x1f => .ok (.std b a)
  | _ => .error (.unsupportedBasic o)

/-- The special opcode map (30_encoding.md R88). -/
def specialOfOpcode (s : Nat) (a : Operand) : Except Reject Instr :=
  match s with
  | 0x01 => .ok (.jsr a)
  | 0x08 => .ok (.int a)
  | 0x09 => .ok (.iag a)
  | 0x0a => .ok (.ias a)
  | 0x0b => .ok (.rfi a)
  | 0x0c => .ok (.iaq a)
  | 0x10 => .ok (.hwn a)
  | 0x11 => .ok (.hwq a)
  | 0x12 => .ok (.hwi a)
  | _ => .error (.unsupportedSpecial s)

/-- The decoder (30_encoding.md R86): reads one instruction off the front of `ws`. The `a` operand takes its next word before
the `b` operand does (R84), and the operands are read before the opcode is found unsupported (41_cycle_and_skip.md R130,
R135). -/
def decode (ws : List Word) : Except Reject (Instr × List Word) :=
  match ws with
  | [] => .error .truncated
  | w :: rest =>
    match operandOfCode (aField w) rest with
    | .error e => .error e
    | .ok (a, restA) =>
      if opField w = 0 then
        match specialOfOpcode (bField w) a with
        | .error e => .error e
        | .ok i => .ok (i, restA)
      else
        match operandOfCode (bField w) restA with
        | .error e => .error e
        | .ok (b, restB) =>
          match basicOfOpcode (opField w) b a with
          | .error e => .error e
          | .ok i => .ok (i, restB)

/-! ## Encoding (30_encoding.md R93) -/

/-- The index of a register (10_state.md R30). -/
def Reg.index : Reg → Nat
  | .a => 0
  | .b => 1
  | .c => 2
  | .x => 3
  | .y => 4
  | .z => 5
  | .i => 6
  | .j => 7

/-- The code of an operand (30_encoding.md R85). -/
def Operand.code : Operand → Nat
  | .reg r => r.index
  | .ind r => 0x08 + r.index
  | .indOff r _ => 0x10 + r.index
  | .stack => 0x18
  | .peek => 0x19
  | .pick _ => 0x1a
  | .sp => 0x1b
  | .pc => 0x1c
  | .ex => 0x1d
  | .abs _ => 0x1e
  | .lit _ => 0x1f
  | .short k => 0x20 + k.toNat

/-- The next word an operand carries, as a list of none or one (30_encoding.md R83). -/
def Operand.nextWords : Operand → List Word
  | .indOff _ n | .pick n | .abs n | .lit n => [n]
  | .reg _ | .ind _ | .stack | .peek | .sp | .pc | .ex | .short _ => []

/-- The instruction word and next words of a basic instruction (30_encoding.md R93). -/
def encodeBasic (o : Nat) (b a : Operand) : List Word :=
  BitVec.ofNat 16 (a.code * 1024 + b.code * 32 + o) :: (a.nextWords ++ b.nextWords)

/-- The instruction word and next word of a special instruction (30_encoding.md R93). -/
def encodeSpecial (s : Nat) (a : Operand) : List Word :=
  BitVec.ofNat 16 (a.code * 1024 + s * 32) :: a.nextWords

/-- The words of a well-formed instruction (30_encoding.md R87, R88, R93). -/
def encode : Instr → List Word
  | .set b a => encodeBasic 0x01 b a
  | .add b a => encodeBasic 0x02 b a
  | .sub b a => encodeBasic 0x03 b a
  | .mul b a => encodeBasic 0x04 b a
  | .mli b a => encodeBasic 0x05 b a
  | .div b a => encodeBasic 0x06 b a
  | .dvi b a => encodeBasic 0x07 b a
  | .mod b a => encodeBasic 0x08 b a
  | .mdi b a => encodeBasic 0x09 b a
  | .and b a => encodeBasic 0x0a b a
  | .bor b a => encodeBasic 0x0b b a
  | .xor b a => encodeBasic 0x0c b a
  | .shr b a => encodeBasic 0x0d b a
  | .asr b a => encodeBasic 0x0e b a
  | .shl b a => encodeBasic 0x0f b a
  | .ifb b a => encodeBasic 0x10 b a
  | .ifc b a => encodeBasic 0x11 b a
  | .ife b a => encodeBasic 0x12 b a
  | .ifn b a => encodeBasic 0x13 b a
  | .ifg b a => encodeBasic 0x14 b a
  | .ifa b a => encodeBasic 0x15 b a
  | .ifl b a => encodeBasic 0x16 b a
  | .ifu b a => encodeBasic 0x17 b a
  | .adx b a => encodeBasic 0x1a b a
  | .sbx b a => encodeBasic 0x1b b a
  | .sti b a => encodeBasic 0x1e b a
  | .std b a => encodeBasic 0x1f b a
  | .jsr a => encodeSpecial 0x01 a
  | .int a => encodeSpecial 0x08 a
  | .iag a => encodeSpecial 0x09 a
  | .ias a => encodeSpecial 0x0a a
  | .rfi a => encodeSpecial 0x0b a
  | .iaq a => encodeSpecial 0x0c a
  | .hwn a => encodeSpecial 0x10 a
  | .hwq a => encodeSpecial 0x11 a
  | .hwi a => encodeSpecial 0x12 a

/-! ## The table's view of an instruction -/

/-- The three Words (the longest instruction, 30_encoding.md R83) of an instruction whose bits are `w`, numbered from the least
significant bit of the first Word; every bit from `nbits` on is 0. -/
def tableWords (nbits w : Nat) : List Word :=
  let v := w % 2 ^ nbits
  [BitVec.ofNat 16 v, BitVec.ofNat 16 (v / 65536), BitVec.ofNat 16 (v / 4294967296)]

/-- The instruction the decoder reads from those Words; none where it refuses. -/
def decodeTableWord (nbits w : Nat) : Option Instr :=
  match decode (tableWords nbits w) with
  | .ok (i, _) => some i
  | .error _ => none

end Sys2Proof
end

