-- ==== Sys2Proof/Config.lean ====
section
/-! DEFINITION. What the spec fixes as a parameter of the hardware, what other agents can do, and the values the spec leaves open
(00_scope.md R8): the memory's content at start, and what endlessly acting devices do. -/

namespace Sys2Proof.Machine

/-- What a device's background thread may do (60_exceptions.md R265): it "cannot touch registers". -/
inductive BusEvent where
  /-- It writes one memory Word (20_memory.md R71). -/
  | memWrite (addr v : Word)
  /-- It calls `interrupt(code)` (60_exceptions.md R250). -/
  | interrupt (code : Word)
  deriving DecidableEq, Repr

/-- One act of a device's handler during HWI (44_special.md R219, 10_state.md R47): any field of ProcessorState, any memory Word,
any number of enqueues; there is no act on `iq` or `fq`. -/
inductive DeviceAction where
  | setReg (r : Reg) (v : Word)
  | setPc (v : Word)
  | setSp (v : Word)
  | setEx (v : Word)
  | setIa (v : Word)
  | setSkipping (on : Bool)
  | memWrite (addr v : Word)
  | interrupt (code : Word)
  deriving DecidableEq, Repr

/-- What one HWI call does (60_exceptions.md R264): the handler's acts in order and its return, or no return at all. -/
inductive DeviceReply where
  | returns (acts : List DeviceAction)
  | neverReturns
  deriving DecidableEq, Repr, Inhabited

end Sys2Proof.Machine

namespace Sys2Proof.Config

/-- How many messages the interrupt queue holds (00_scope.md R8, 60_exceptions.md R248). -/
def queueCapacity : Nat := 256

/-- How many Words the memory has (20_memory.md R60). -/
def memoryWords : Nat := 65536

/-- The largest `N_dev` (00_scope.md R8, 92_eei_decisions.md D16). -/
def maxDevices : Nat := 65535

/-- The parameter `memInit` (92_eei_decisions.md D4): what a Word holds that neither the image nor any agent has
written. "A model must not assume zero": it has no body, so nothing can be proved of its values. DESIGN CHOICE, safe:
assumption log 1. -/
opaque memInit : Word → Word

/-- The parameter `schedule` (92_eei_decisions.md D15) where it has no end: what device threads do at the access point of number
`n`. "Every interleaving is admitted": it has no body. DESIGN CHOICE, safe: assumption log 5. -/
opaque threadTurn : Nat → List Machine.BusEvent

/-- The parameter `deviceInterrupt` (92_eei_decisions.md D17) where it has no end: what the HWI call of number `n` does. It has no
body. DESIGN CHOICE, safe: assumption log 6. -/
opaque deviceReply : Nat → Machine.DeviceReply

/-- The parameter `loadByteOrder` (20_memory.md R64, 92_eei_decisions.md D5). It exists only where bytes become Words. -/
inductive ByteOrder where
  /-- High byte first, the default. -/
  | big
  /-- Low byte first. -/
  | little
  deriving DecidableEq, Repr

end Sys2Proof.Config
end

