-- ==== Sys2Proof/Machine/State.lean ====
section
/-! DEFINITION. The machine's state as plain data: everything 10_state.md gives the core, the memory and the device set it reaches,
and three fields that hold what the spec leaves to other agents (its parameters `schedule` and `deviceInterrupt`, and the
observer), so that every behaviour the spec admits is the behaviour of some state. -/

namespace Sys2Proof.Machine

/-- The eight general registers (10_state.md R30). -/
structure Regs where
  a : Word
  b : Word
  c : Word
  x : Word
  y : Word
  z : Word
  i : Word
  j : Word
  deriving DecidableEq, Repr

/-- The memory: a list of byte cells, addresses strictly rising. The Word at address `a` is the two cells `2a` (its high byte)
and `2a + 1` (its low byte). A cell that is not listed has not been written since the start of the run; what it reads as is
`Memory.byteAt`'s to say. DESIGN CHOICE, safe: assumption logs 2 and 3. -/
abbrev Memory := List Host.Cell

/-- What the hardware bus knows of a device (60_exceptions.md R263); it "does not change during a run". -/
structure Device where
  id : BitVec 32
  manufacturer : BitVec 32
  version : Word
  deriving DecidableEq, Repr

/-- What another agent does at its coming occasions, as data (assumption logs 5 and 6): so many known items, and after them either
nothing more or, endlessly, the free values numbered from `n` on. -/
inductive Supply (α : Type) where
  /-- Nothing more. -/
  | ended
  /-- `x` at the coming occasion, and then `rest`. -/
  | item (x : α) (rest : Supply α)
  /-- Endless: the free value of number `n + k` at the k-th coming occasion. -/
  | free (n : Nat)
  deriving DecidableEq, Repr

/-- Why the machine stops with a fault. The first three are the fatal faults of 60_exceptions.md R240, with the information each
records; the last is the stuck state of R264. None carries a register or memory value (R246). -/
inductive Fault where
  /-- Raised by the decode of any cycle whose word spells no instruction, executed or skipped (R242). Safe: the spec's own. -/
  | unsupportedOperation (start word : Word)
  /-- Raised by an enqueue into a full queue: INT, a device in HWI, or a device's background thread (R243). Safe: the spec's own. -/
  | deviceOverload (message : Word)
  /-- Raised by HWQ and HWI for an index not below `N_dev` (R244). Safe: the spec's own. -/
  | noSuchDevice (index : Word)
  /-- Raised by HWI when the device's handler never returns: the core is stuck, with no further cycle (R264). Safe: the machine goes
  nowhere either way (assumption log 8). -/
  | stuckInDevice (index : Word)
  deriving DecidableEq, Repr

/-- Why the machine has no step. -/
inductive Refusal where
  /-- An instruction whose meaning is not written; raised in `exec`'s arm only. Safe: nothing is claimed of it. -/
  | notModelled (mnemonic : String)
  /-- Raised by `step` in a stopped core, which takes no further cycle (10_state.md R45). Safe: there is no such cycle. -/
  | stopped
  deriving DecidableEq, Repr

/-- The run status (10_state.md R45). -/
inductive RunStatus where
  | running
  /-- The host's observer requested `stop()` (60_exceptions.md R266). -/
  | stopped
  /-- A fault ended the run (60_exceptions.md R241). A fault leaves no observable state, so no step enters this status:
  the step that faults answers the fault itself (assumption log 9). -/
  | faulted (f : Fault)
  deriving DecidableEq, Repr

/-- The machine's state. Every field but the last three is the spec's (INVENTORY.md lists each with its rule). -/
structure State where
  /-- A, B, C, X, Y, Z, I, J (10_state.md R30). -/
  regs : Regs
  /-- The program counter (10_state.md R33). -/
  pc : Word
  /-- The stack pointer (10_state.md R36). -/
  sp : Word
  /-- The extra/overflow register (10_state.md R37). -/
  ex : Word
  /-- The interrupt address; 0 means interrupts are disabled (10_state.md R38). -/
  ia : Word
  /-- "true while conditional-skip chaining is in effect" (10_state.md R40). -/
  skipping : Bool
  /-- `interruptsQueuing`: "set while inside an interrupt handler" (10_state.md R41). -/
  iq : Bool
  /-- Force queuing, set and cleared by IAQ (10_state.md R42). -/
  fq : Bool
  /-- The interrupt queue `Q`, its head the oldest message (10_state.md R43). -/
  queue : List Word
  /-- The run status (10_state.md R45). -/
  status : RunStatus
  /-- The memory `M` (20_memory.md R60). -/
  mem : Memory
  /-- The attached devices in the bus's order; `N_dev` is their number (60_exceptions.md R262, R263). -/
  devices : List Device
  /-- MODEL'S OWN, the parameter `schedule` (92_eei_decisions.md D15): what device threads do just before the coming access points
of the core (assumption log 5). -/
  schedule : Supply (List BusEvent)
  /-- MODEL'S OWN, the parameter `deviceInterrupt` (92_eei_decisions.md D17): what the coming HWI calls do
(assumption log 6). -/
  deviceReplies : Supply DeviceReply
  /-- MODEL'S OWN, the observer (60_exceptions.md R266): does it request `stop()` after the coming cycles; past the end it
  does not (assumption log 7). -/
  stopRequests : List Bool
  deriving DecidableEq, Repr

/-- All eight general registers zero. -/
def Regs.zero : Regs := { a := 0, b := 0, c := 0, x := 0, y := 0, z := 0, i := 0, j := 0 }

/-- The machine right after reset (70_reset_and_hazards.md R290). `sp` is 65536 as a Word, 0 (10_state.md R36); no Word of memory is
listed, so every Word holds what `memInit` gives it (R293); the device set is the default, empty (60_exceptions.md R262). -/
def State.reset : State where
  regs := Regs.zero
  pc := 0
  sp := 0
  ex := 0
  ia := 0
  skipping := false
  iq := false
  fq := false
  queue := []
  status := .running
  mem := []
  devices := []
  schedule := .ended
  deviceReplies := .ended
  stopRequests := []

end Sys2Proof.Machine
end

