-- ==== Sys2Proof/Machine/Ops.lean ====
section
/-! DEFINITION. The named operations over memory, registers, the device threads and the interrupt queue; interrupt delivery, which
is this machine's one exception entry (60_exceptions.md R252), and the return from it beside it (44_special.md R215). -/

namespace Sys2Proof.Machine

/-! ## Bytes of a Word, and the cells of the memory (20_memory.md R60, R64; assumption log 2) -/

/-- The high byte of a Word. -/
def hiByte (w : Word) : Byte := BitVec.ofNat 8 (w.toNat / 256)

/-- The low byte of a Word. -/
def loByte (w : Word) : Byte := BitVec.ofNat 8 w.toNat

/-- The Word of two bytes: `b0 * 256 + b1` (20_memory.md R64). -/
def wordOfBytes (hi lo : Byte) : Word := BitVec.ofNat 16 (hi.toNat * 256 + lo.toNat)

/-- The byte listed at cell `k`, if one is. -/
def Memory.find (k : Nat) : Memory → Option Byte
  | [] => none
  | (k', v) :: rest => if k = k' then some v else Memory.find k rest

/-- What a cell that nothing has written reads as: its half of the free value `memInit` (92_eei_decisions.md D4;
assumption log 1). This is the one definition of what an unlisted address reads as. -/
def Memory.unwritten (k : Nat) : Byte :=
  let w := Config.memInit (BitVec.ofNat 16 (k / 2))
  if k % 2 = 0 then hiByte w else loByte w

/-- What cell `k` reads as. -/
def Memory.byteAt (m : Memory) (k : Nat) : Byte := (Memory.find k m).getD (Memory.unwritten k)

/-- Store a byte at cell `k`, the list staying in rising order. -/
def Memory.storeByte (k : Nat) (v : Byte) : Memory → Memory
  | [] => [(k, v)]
  | (k', v') :: rest =>
    if k < k' then (k, v) :: (k', v') :: rest
    else if k = k' then (k, v) :: rest
    else (k', v') :: Memory.storeByte k v rest

/-- The Word at address `a` (00_scope.md R14). -/
def Memory.word (m : Memory) (a : Word) : Word :=
  wordOfBytes (m.byteAt (2 * a.toNat)) (m.byteAt (2 * a.toNat + 1))

/-- The memory with Word `v` stored at address `a` (00_scope.md R14). -/
def Memory.setWord (m : Memory) (a v : Word) : Memory :=
  Memory.storeByte (2 * a.toNat + 1) (loByte v) (Memory.storeByte (2 * a.toNat) (hiByte v) m)

/-- Is every address of the list above `k`, and the list strictly rising? -/
def Memory.risingAbove (k : Nat) : Memory → Bool
  | [] => true
  | (k', _) :: rest => k < k' && Memory.risingAbove k' rest

/-- Are the addresses strictly rising? -/
def Memory.rising : Memory → Bool
  | [] => true
  | (k, _) :: rest => Memory.risingAbove k rest

/-- The canonical form: addresses strictly rising and inside the 65536 Words (20_memory.md R60). An unlisted cell has no value of its
own (it reads as a free value), so no entry can be known equal to it and none is dropped (assumption log 3). -/
def Memory.wf (m : Memory) : Bool :=
  m.rising && m.all (fun c => c.1 < 2 * Config.memoryWords)

/-! ## General registers (10_state.md R30, R31) -/

/-- `x[r]`. -/
def Regs.get (g : Regs) : Reg → Word
  | .a => g.a
  | .b => g.b
  | .c => g.c
  | .x => g.x
  | .y => g.y
  | .z => g.z
  | .i => g.i
  | .j => g.j

/-- The registers after `x[r] <- v`. -/
def Regs.set (g : Regs) (r : Reg) (v : Word) : Regs :=
  match r with
  | .a => { g with a := v }
  | .b => { g with b := v }
  | .c => { g with c := v }
  | .x => { g with x := v }
  | .y => { g with y := v }
  | .z => { g with z := v }
  | .i => { g with i := v }
  | .j => { g with j := v }

/-- `x[r]` in state `s` (00_scope.md R13). -/
def State.reg (s : State) (r : Reg) : Word := s.regs.get r

/-- `x[r] <- v` (00_scope.md R13). -/
def State.setReg (s : State) (r : Reg) (v : Word) : State := { s with regs := s.regs.set r v }

/-- Word `v` put at address `a`, no other agent acting. -/
def State.storeWord (s : State) (a v : Word) : State := { s with mem := s.mem.setWord a v }

/-! ## The interrupt queue (60_exceptions.md R248, R249) -/

/-- `Enqueue(m)`: a full queue faults and does not store the message (R243, R249). It looks at no flag. "Full" is 256 messages;
a longer queue, which no run reaches, is full too (assumption log 16). -/
def enqueue (m : Word) (s : State) : Except Fault State :=
  if Config.queueCapacity ≤ s.queue.length then .error (.deviceOverload m)
  else .ok { s with queue := s.queue ++ [m] }

/-! ## Device threads (60_exceptions.md R265, 20_memory.md R71; assumption logs 5 and 14) -/

/-- One event of a device's background thread. -/
def busEvent (e : BusEvent) (s : State) : Except Fault State :=
  match e with
  | .memWrite a v => .ok (s.storeWord a v)
  | .interrupt m => enqueue m s

/-- The events of one turn in order; the first fault ends the run at that event (60_exceptions.md R243). -/
def busEvents : List BusEvent → State → Except Fault State
  | [], s => .ok s
  | e :: rest, s =>
    match busEvent e s with
    | .error f => .error f
    | .ok s' => busEvents rest s'

/-- What the agent does at the coming occasion: `idle` when it does nothing more. -/
def Supply.head {α : Type} (idle : α) (freeValue : Nat → α) : Supply α → α
  | .ended => idle
  | .item x _ => x
  | .free n => freeValue n

/-- What is to come after the coming occasion. -/
def Supply.tail {α : Type} : Supply α → Supply α
  | .ended => .ended
  | .item _ rest => rest
  | .free n => .free (n + 1)

/-- The events of device threads just before the coming access point. -/
def nextTurn (schedule : Supply (List BusEvent)) : List BusEvent := schedule.head [] Config.threadTurn

/-- An access point of the core: the events the schedule puts just before it happen first (20_memory.md R66, R71). -/
def busTurn (s : State) : Except Fault State :=
  busEvents (nextTurn s.schedule) { s with schedule := s.schedule.tail }

/-! ## The core's memory port (00_scope.md R14, R15) -/

/-- `MemRead(a, 1)`: one access point. -/
def memRead (a : Word) (s : State) : Except Fault (Word × State) :=
  match busTurn s with
  | .error f => .error f
  | .ok s' => .ok (s'.mem.word a, s')

/-- `MemWrite(a, 1, v)`: one access point. -/
def memWrite (a v : Word) (s : State) : Except Fault State :=
  match busTurn s with
  | .error f => .error f
  | .ok s' => .ok (s'.storeWord a v)

/-- `NextWord()`: read at `pc` and advance `pc` modulo 2^16 (00_scope.md R15, 10_state.md R34). -/
def nextWord (s : State) : Except Fault (Word × State) :=
  match memRead s.pc s with
  | .error f => .error f
  | .ok (v, s') => .ok (v, { s' with pc := s'.pc + 1 })

/-- `n` next words in order (40_operands.md R111). -/
def nextWords : Nat → State → Except Fault (List Word × State)
  | 0, s => .ok ([], s)
  | n + 1, s =>
    match nextWord s with
    | .error f => .error f
    | .ok (v, s1) =>
      match nextWords n s1 with
      | .error f => .error f
      | .ok (vs, s2) => .ok (v :: vs, s2)

/-- `PushWord(v)`: decrement `sp`, then store (00_scope.md R15). -/
def pushWord (v : Word) (s : State) : Except Fault State :=
  memWrite (s.sp - 1) v { s with sp := s.sp - 1 }

/-- `PopWord()`: read at `sp`, then increment (00_scope.md R15). -/
def popWord (s : State) : Except Fault (Word × State) :=
  match memRead s.sp s with
  | .error f => .error f
  | .ok (v, s') => .ok (v, { s' with sp := s'.sp + 1 })

/-! ## Exception entry and return -/

/-- `Deliver(m)`, the exception entry (60_exceptions.md R252): with `ia = 0` the message is dropped; else `iq` is set, `pc` and then A
are pushed, A takes the message and `pc` takes `ia`. -/
def deliver (m : Word) (s : State) : Except Fault State :=
  if s.ia = 0 then .ok s
  else
    match pushWord s.pc { s with iq := true } with
    | .error f => .error f
    | .ok s1 =>
      match pushWord (s1.reg .a) s1 with
      | .error f => .error f
      | .ok s2 => .ok { s2.setReg .a m with pc := s2.ia }

/-- The return from an interrupt (44_special.md R215, 60_exceptions.md R260): clear `iq`, pop A, then pop `pc`. -/
def returnFromInterrupt (s : State) : Except Fault State :=
  match popWord { s with iq := false } with
  | .error f => .error f
  | .ok (v, s1) =>
    match popWord (s1.setReg .a v) with
    | .error f => .error f
    | .ok (target, s2) => .ok { s2 with pc := target }

/-- `DequeueAndDeliver()` (60_exceptions.md R251): take the oldest message, if there is one, and deliver it. -/
def dequeueAndDeliver (s : State) : Except Fault State :=
  match s.queue with
  | [] => .ok s
  | m :: rest => deliver m { s with queue := rest }

/-- The outcome of a meaning that can end in a next state or a fault. -/
def outcome (r : Except Fault State) : Host.Outcome State Fault Refusal :=
  match r with
  | .ok s => .next s
  | .error f => .fault f

end Sys2Proof.Machine
end

