-- ==== Sys2Proof/Machine/Cycle.lean ====
section
/-! DEFINITION. The parts of one engine cycle around the execution of an instruction (41_cycle_and_skip.md R130): the interrupt step,
the fetch, the skip step and the observer; and where the next step fetches. -/

namespace Sys2Proof.Machine

/-- Step 1 (41_cycle_and_skip.md R130, R131): a cycle begins at an access point; then, unless `skipping` or `iq` holds it back, at most
one message is dequeued and delivered. -/
def interruptStep (s : State) : Except Fault State :=
  match busTurn s with
  | .error f => .error f
  | .ok s1 => if s1.skipping || s1.iq then .ok s1 else dequeueAndDeliver s1

/-- Step 2 and the fetches of steps 4 and 5 (41_cycle_and_skip.md R132, 40_operands.md R111): the instruction word and its next words,
`pc` advanced past them all. -/
def fetch (s : State) : Except Fault (List Word × State) :=
  match nextWord s with
  | .error f => .error f
  | .ok (w, s1) =>
    match nextWords (nextWordCount w) s1 with
    | .error f => .error f
    | .ok (ws, s2) => .ok (w :: ws, s2)

/-- Is an instruction conditional: basic format with opcode 0x10 to 0x17 (41_cycle_and_skip.md R137)? -/
def isConditional : Instr → Bool
  | .ifb _ _ | .ifc _ _ | .ife _ _ | .ifn _ _ | .ifg _ _ | .ifa _ _ | .ifl _ _ | .ifu _ _ => true
  | .set _ _ | .add _ _ | .sub _ _ | .mul _ _ | .mli _ _ | .div _ _ | .dvi _ _ | .mod _ _ | .mdi _ _ => false
  | .and _ _ | .bor _ _ | .xor _ _ | .shr _ _ | .asr _ _ | .shl _ _ => false
  | .adx _ _ | .sbx _ _ | .sti _ _ | .std _ _ => false
  | .jsr _ | .int _ | .iag _ | .ias _ | .rfi _ | .iaq _ | .hwn _ | .hwq _ | .hwi _ => false

/-- `skipStep(op)` (41_cycle_and_skip.md R138): a skipped conditional keeps the chain going unevaluated, a skipped non-conditional
ends it; nothing else happens. -/
def skipStep (i : Instr) (s : State) : State := { s with skipping := isConditional i }

/-- Step 7 (60_exceptions.md R266): the observer may request a stop, which takes effect before the next fetch. -/
def observe (s : State) : State :=
  match s.stopRequests with
  | [] => s
  | true :: rest => { s with stopRequests := rest, status := .stopped }
  | false :: rest => { s with stopRequests := rest }

/-- The end of a cycle: device threads may act once more before the observer sees the state (60_exceptions.md R265, R266;
assumption log 14). -/
def endCycle (s : State) : Except Fault State :=
  match busTurn s with
  | .error f => .error f
  | .ok s1 => .ok (observe s1)

/-- Is the address of the coming fetch `ia`, because step 1 will deliver a message, device threads being quiet
(60_exceptions.md R251, R252)? -/
def willDeliver (s : State) : Bool :=
  !s.skipping && !s.iq && s.ia != 0 && !s.queue.isEmpty

/-- Where the coming step fetches its instruction word, device threads being quiet (41_cycle_and_skip.md R131). -/
def fetchAddress (s : State) : Word := if willDeliver s then s.ia else s.pc

/-- Words stored from address `a` on, wrapping (10_state.md R34). -/
def Memory.setWords (a : Word) : List Word → Memory → Memory
  | [], m => m
  | w :: ws, m => Memory.setWords (a + 1) ws (m.setWord a w)

end Sys2Proof.Machine
end

