-- ==== Sys2Proof/Machine/Flags.lean ====
section
/-! DEFINITION. Results and EX values of the basic operations, and the conditions of the conditionals, as functions of the operand
Words (42_alu.md, 43_conditional.md). Each computes exactly on integers and narrows at the end (00_scope.md R10). -/

namespace Sys2Proof.Machine

/-- `sint(v)`, the two's-complement value of a Word (00_scope.md R11). -/
def sint (v : Word) : Int := if v.toNat < 0x8000 then (v.toNat : Int) else (v.toNat : Int) - 0x10000

/-- `n mod 2^16` of a natural number (00_scope.md R10). -/
def wordOfNat (n : Nat) : Word := BitVec.ofNat 16 n

/-- `z mod 2^16` of an integer, the non-negative residue (00_scope.md R10). -/
def wordOfInt (z : Int) : Word := BitVec.ofInt 16 z

/-! ## Result and EX, as functions of `bv`, `av` and the old EX -/

/-- ADD (42_alu.md R152): EX is the carry out. -/
def addResult (bv av _ex : Word) : Word × Word :=
  let s := bv.toNat + av.toNat
  (wordOfNat s, if 0xffff < s then 0x0001 else 0x0000)

/-- SUB (42_alu.md R153): EX is the borrow, 0xffff. -/
def subResult (bv av _ex : Word) : Word × Word :=
  let d : Int := (bv.toNat : Int) - (av.toNat : Int)
  (wordOfInt d, if d < 0 then 0xffff else 0x0000)

/-- MUL (42_alu.md R154): EX is the high half of the unsigned product. -/
def mulResult (bv av _ex : Word) : Word × Word :=
  let p := bv.toNat * av.toNat
  (wordOfNat p, wordOfNat (p >>> 16))

/-- MLI (42_alu.md R155): EX is bits 31..16 of the signed product. -/
def mliResult (bv av _ex : Word) : Word × Word :=
  let p := sint bv * sint av
  (wordOfInt p, wordOfInt (p >>> (16 : Nat)))

/-- DIV (42_alu.md R156): EX is the first 16 fraction bits; a zero divisor gives 0 and 0. -/
def divResult (bv av _ex : Word) : Word × Word :=
  if av = 0 then (0x0000, 0x0000)
  else (wordOfNat (bv.toNat / av.toNat), wordOfNat ((bv.toNat <<< 16) / av.toNat))

/-- DVI (42_alu.md R157): signed, rounding toward zero. -/
def dviResult (bv av _ex : Word) : Word × Word :=
  if av = 0 then (0x0000, 0x0000)
  else (wordOfInt ((sint bv).tdiv (sint av)), wordOfInt ((sint bv * 0x10000).tdiv (sint av)))

/-- SHR (42_alu.md R163): the whole Word `av` is the count; EX holds the bits shifted out, left-aligned. -/
def shrResult (bv av _ex : Word) : Word × Word :=
  (wordOfNat (bv.toNat >>> av.toNat), wordOfNat ((bv.toNat <<< 16) >>> av.toNat))

/-- ASR (42_alu.md R164): as SHR on the signed value, `>>` rounding toward minus infinity. -/
def asrResult (bv av _ex : Word) : Word × Word :=
  (wordOfInt (sint bv >>> av.toNat), wordOfInt ((sint bv * 0x10000) >>> av.toNat))

/-- SHL (42_alu.md R165): EX holds the bits shifted out of the top, right-aligned. -/
def shlResult (bv av _ex : Word) : Word × Word :=
  (wordOfNat (bv.toNat <<< av.toNat), wordOfNat ((bv.toNat <<< av.toNat) >>> 16))

/-- ADX (42_alu.md R166): `b + a + EX`; EX is 1 when the sum passes 0xffff. -/
def adxResult (bv av ex : Word) : Word × Word :=
  let s := bv.toNat + av.toNat + ex.toNat
  (wordOfNat s, if 0xffff < s then 0x0001 else 0x0000)

/-- SBX (42_alu.md R167): `b - a`, then `+ EX`, each stage wrapping and moving the signed overflow counter. -/
def sbxResult (bv av ex : Word) : Word × Word :=
  let t0 : Int := (bv.toNat : Int) - (av.toNat : Int)
  let c1 : Int := if t0 < 0 then -1 else 0
  let t1 : Int := if t0 < 0 then t0 + 0x10000 else t0
  let t2 : Int := t1 + (ex.toNat : Int)
  let c : Int := if 0xffff < t2 then c1 + 1 else c1
  let t : Int := if 0xffff < t2 then t2 - 0x10000 else t2
  (wordOfInt t, if c = -1 then 0xffff else if c = 1 then 0x0001 else 0x0000)

/-! ## Results without EX -/

/-- MOD (42_alu.md R158): a zero divisor gives 0. -/
def modResult (bv av : Word) : Word :=
  if av = 0 then 0x0000 else wordOfNat (bv.toNat - av.toNat * (bv.toNat / av.toNat))

/-- MDI (42_alu.md R159): the remainder has the sign of the dividend. -/
def mdiResult (bv av : Word) : Word :=
  if av = 0 then 0x0000 else wordOfInt (sint bv - sint av * (sint bv).tdiv (sint av))

/-- AND (42_alu.md R160). -/
def andResult (bv av : Word) : Word := bv &&& av

/-- BOR (42_alu.md R161). -/
def borResult (bv av : Word) : Word := bv ||| av

/-- XOR (42_alu.md R162). -/
def xorResult (bv av : Word) : Word := bv ^^^ av

/-! ## Conditions, as functions of `bv` and `av` -/

/-- IFB (43_conditional.md R191). -/
def ifbHolds (bv av : Word) : Bool := (bv &&& av) != 0

/-- IFC (43_conditional.md R192). -/
def ifcHolds (bv av : Word) : Bool := (bv &&& av) == 0

/-- IFE (43_conditional.md R193). -/
def ifeHolds (bv av : Word) : Bool := bv == av

/-- IFN (43_conditional.md R194). -/
def ifnHolds (bv av : Word) : Bool := bv != av

/-- IFG (43_conditional.md R195), unsigned. -/
def ifgHolds (bv av : Word) : Bool := decide (av.toNat < bv.toNat)

/-- IFA (43_conditional.md R196), signed. -/
def ifaHolds (bv av : Word) : Bool := decide (sint av < sint bv)

/-- IFL (43_conditional.md R197), unsigned. -/
def iflHolds (bv av : Word) : Bool := decide (bv.toNat < av.toNat)

/-- IFU (43_conditional.md R198), signed. -/
def ifuHolds (bv av : Word) : Bool := decide (sint bv < sint av)

end Sys2Proof.Machine
end

