-- ==== Sys2Proof/Machine/Operands.lean ====
section
/-! DEFINITION. Operand resolution and operand access (40_operands.md), and the shapes of instruction that share them. -/

namespace Sys2Proof.Machine

/-- Where an operand reads and writes once it is bound (40_operands.md R113, R114, R117 to R121). -/
inductive Place where
  | reg (r : Reg)
  | mem (addr : Word)
  | peek
  | sp
  | pc
  | ex
  | lit (v : Word)
  deriving DecidableEq, Repr

/-- What an operand code resolves to (40_operands.md R110). `push` and `pop` bind an address at their first access. -/
inductive Handle where
  | place (p : Place)
  | push
  | pop
  deriving DecidableEq, Repr

/-- The value of the inlined literal of code `0x20 + k`: `(code - 0x21) mod 2^16` (30_encoding.md R92). -/
def shortValue (k : BitVec 5) : Word := k.setWidth 16 - 1

/-- Resolution of an operand, its next word already fetched (40_operands.md R110, R112): it reads registers and changes nothing.
The addresses of `[register]`, `[register + n]` and `[SP + n]` are fixed here. -/
def resolve (isA : Bool) (o : Operand) (s : State) : Handle :=
  match o with
  | .reg r => .place (.reg r)
  | .ind r => .place (.mem (s.reg r))
  | .indOff r n => .place (.mem (s.reg r + n))
  | .stack => if isA then .pop else .push
  | .peek => .place .peek
  | .pick n => .place (.mem (s.sp + n))
  | .sp => .place .sp
  | .pc => .place .pc
  | .ex => .place .ex
  | .abs n => .place (.mem n)
  | .lit n => .place (.lit n)
  | .short k => .place (.lit (shortValue k))

/-- The first access of a handle binds it: PUSH at the decremented `sp`, POP at the old `sp`, each moving `sp` once
(40_operands.md R115, R116, R122). -/
def bindHandle (h : Handle) (s : State) : Place × State :=
  match h with
  | .place p => (p, s)
  | .push => (.mem (s.sp - 1), { s with sp := s.sp - 1 })
  | .pop => (.mem s.sp, { s with sp := s.sp + 1 })

/-- A read of a bound operand (40_operands.md R113 to R121). -/
def readPlace (p : Place) (s : State) : Except Fault (Word × State) :=
  match p with
  | .reg r => .ok (s.reg r, s)
  | .mem addr => memRead addr s
  | .peek => memRead s.sp s
  | .sp => .ok (s.sp, s)
  | .pc => .ok (s.pc, s)
  | .ex => .ok (s.ex, s)
  | .lit v => .ok (v, s)

/-- A write of a bound operand (40_operands.md R113 to R121); a write through a literal does nothing (R121). -/
def writePlace (p : Place) (v : Word) (s : State) : Except Fault State :=
  match p with
  | .reg r => .ok (s.setReg r v)
  | .mem addr => memWrite addr v s
  | .peek => memWrite s.sp v s
  | .sp => .ok { s with sp := v }
  | .pc => .ok { s with pc := v }
  | .ex => .ok { s with ex := v }
  | .lit _ => .ok s

/-- The memory address a write of a bound operand stores to; none where it stores to no memory. -/
def storeAddress (p : Place) (s : State) : Option Word :=
  match p with
  | .mem addr => some addr
  | .peek => some s.sp
  | .reg _ | .sp | .pc | .ex | .lit _ => none

/-- `Rd(h)` as the first access of `h` (00_scope.md R16): the value, and where later accesses of `h` act. -/
def readHandle (h : Handle) (s : State) : Except Fault (Word × Place × State) :=
  match readPlace (bindHandle h s).1 (bindHandle h s).2 with
  | .error f => .error f
  | .ok (v, s') => .ok (v, (bindHandle h s).1, s')

/-- `Wr(h, v)` as the first access of `h` (00_scope.md R16). -/
def writeHandle (h : Handle) (v : Word) (s : State) : Except Fault State :=
  writePlace (bindHandle h s).1 v (bindHandle h s).2

/-! ## The shapes of instruction (40_operands.md R124) -/

/-- Both operands resolved, `a` read and then `b` read (40_operands.md R111, R124): the values `bv` and `av`, and where `b` is
written. -/
def readBoth (b a : Operand) (s : State) : Except Fault (Word × Word × Place × State) :=
  match readHandle (resolve true a s) s with
  | .error f => .error f
  | .ok (av, _, s1) =>
    match readHandle (resolve false b s) s1 with
    | .error f => .error f
    | .ok (bv, p, s2) => .ok (bv, av, p, s2)

/-- `b <- f(b, a, ex)` and then `ex <- g`: `f` answers the result and the new EX. The EX write comes after the write of `b`
(42_alu.md R170). -/
def combineWithEx (f : Word → Word → Word → Word × Word) (b a : Operand) (s : State) : Except Fault State :=
  match readBoth b a s with
  | .error e => .error e
  | .ok (bv, av, p, s1) =>
    match writePlace p (f bv av s1.ex).1 s1 with
    | .error e => .error e
    | .ok s2 => .ok { s2 with ex := (f bv av s1.ex).2 }

/-- `b <- f(b, a)`, EX not written. -/
def combine (f : Word → Word → Word) (b a : Operand) (s : State) : Except Fault State :=
  match readBoth b a s with
  | .error e => .error e
  | .ok (bv, av, p, s1) => writePlace p (f bv av) s1

/-- `b <- a`, `b` not read (42_alu.md R151). -/
def move (b a : Operand) (s : State) : Except Fault State :=
  match readHandle (resolve true a s) s with
  | .error e => .error e
  | .ok (av, _, s1) => writeHandle (resolve false b s) av s1

/-- `b <- a`, and then I and J each moved by `d` (42_alu.md R168, R169). -/
def moveAndStep (d : Word) (b a : Operand) (s : State) : Except Fault State :=
  match move b a s with
  | .error e => .error e
  | .ok s1 =>
    let s2 := s1.setReg .i (s1.reg .i + d)
    .ok (s2.setReg .j (s2.reg .j + d))

/-- An executed conditional: both operands read, and `skipping` set when the condition fails (43_conditional.md R190). -/
def conditional (cond : Word → Word → Bool) (b a : Operand) (s : State) : Except Fault State :=
  match readBoth b a s with
  | .error e => .error e
  | .ok (bv, av, _, s1) => .ok (if cond bv av then s1 else { s1 with skipping := true })

/-- The read of a special operation's operand (44_special.md R210). -/
def readA (a : Operand) (s : State) : Except Fault (Word × State) :=
  match readHandle (resolve true a s) s with
  | .error e => .error e
  | .ok (av, _, s1) => .ok (av, s1)

/-- The write of a special operation's operand (IAG, HWN; 40_operands.md R124). -/
def writeA (a : Operand) (v : Word) (s : State) : Except Fault State :=
  writeHandle (resolve true a s) v s

end Sys2Proof.Machine
end

