-- ==== Sys2Proof/Machine/Arithmetic.lean ====
section
/-! DEFINITION. Addition, subtraction, multiplication, division and remainder (42_alu.md R152 to R159, R166, R167). -/

namespace Sys2Proof.Machine

/-- ADD b, a (42_alu.md R152). -/
def execAdd (b a : Operand) (s : State) : Host.Outcome State Fault Refusal := outcome (combineWithEx addResult b a s)

/-- SUB b, a (42_alu.md R153). -/
def execSub (b a : Operand) (s : State) : Host.Outcome State Fault Refusal := outcome (combineWithEx subResult b a s)

/-- MUL b, a (42_alu.md R154). -/
def execMul (b a : Operand) (s : State) : Host.Outcome State Fault Refusal := outcome (combineWithEx mulResult b a s)

/-- MLI b, a (42_alu.md R155). -/
def execMli (b a : Operand) (s : State) : Host.Outcome State Fault Refusal := outcome (combineWithEx mliResult b a s)

/-- DIV b, a (42_alu.md R156). -/
def execDiv (b a : Operand) (s : State) : Host.Outcome State Fault Refusal := outcome (combineWithEx divResult b a s)

/-- DVI b, a (42_alu.md R157). -/
def execDvi (b a : Operand) (s : State) : Host.Outcome State Fault Refusal := outcome (combineWithEx dviResult b a s)

/-- MOD b, a (42_alu.md R158); EX is not written. -/
def execMod (b a : Operand) (s : State) : Host.Outcome State Fault Refusal := outcome (combine modResult b a s)

/-- MDI b, a (42_alu.md R159); EX is not written. -/
def execMdi (b a : Operand) (s : State) : Host.Outcome State Fault Refusal := outcome (combine mdiResult b a s)

/-- ADX b, a (42_alu.md R166). -/
def execAdx (b a : Operand) (s : State) : Host.Outcome State Fault Refusal := outcome (combineWithEx adxResult b a s)

/-- SBX b, a (42_alu.md R167). -/
def execSbx (b a : Operand) (s : State) : Host.Outcome State Fault Refusal := outcome (combineWithEx sbxResult b a s)

end Sys2Proof.Machine
end

