-- ==== Sys2Proof/Machine/Conditional.lean ====
section
/-! DEFINITION. The eight conditionals (43_conditional.md R190 to R198). -/

namespace Sys2Proof.Machine

/-- IFB b, a (43_conditional.md R191). -/
def execIfb (b a : Operand) (s : State) : Host.Outcome State Fault Refusal := outcome (conditional ifbHolds b a s)

/-- IFC b, a (43_conditional.md R192). -/
def execIfc (b a : Operand) (s : State) : Host.Outcome State Fault Refusal := outcome (conditional ifcHolds b a s)

/-- IFE b, a (43_conditional.md R193). -/
def execIfe (b a : Operand) (s : State) : Host.Outcome State Fault Refusal := outcome (conditional ifeHolds b a s)

/-- IFN b, a (43_conditional.md R194). -/
def execIfn (b a : Operand) (s : State) : Host.Outcome State Fault Refusal := outcome (conditional ifnHolds b a s)

/-- IFG b, a (43_conditional.md R195). -/
def execIfg (b a : Operand) (s : State) : Host.Outcome State Fault Refusal := outcome (conditional ifgHolds b a s)

/-- IFA b, a (43_conditional.md R196). -/
def execIfa (b a : Operand) (s : State) : Host.Outcome State Fault Refusal := outcome (conditional ifaHolds b a s)

/-- IFL b, a (43_conditional.md R197). -/
def execIfl (b a : Operand) (s : State) : Host.Outcome State Fault Refusal := outcome (conditional iflHolds b a s)

/-- IFU b, a (43_conditional.md R198). -/
def execIfu (b a : Operand) (s : State) : Host.Outcome State Fault Refusal := outcome (conditional ifuHolds b a s)

end Sys2Proof.Machine
end

