-- ==== Sys2Proof/Machine/Hardware.lean ====
section
/-! DEFINITION. The hardware bus and its instructions (44_special.md R217 to R219, 60_exceptions.md R262 to R264). -/

namespace Sys2Proof.Machine

/-- `N_dev` as a Word (60_exceptions.md R262); at most 65535 devices are attached (92_eei_decisions.md D16). -/
def State.deviceCount (s : State) : Word := BitVec.ofNat 16 s.devices.length

/-- The device at a bus index, if there is one (60_exceptions.md R244, R262). -/
def State.device (s : State) (index : Word) : Option Device := s.devices[index.toNat]?

/-- The low half of a 32-bit identity. -/
def lowHalf (v : BitVec 32) : Word := v.extractLsb' 0 16

/-- The high half of a 32-bit identity. -/
def highHalf (v : BitVec 32) : Word := v.extractLsb' 16 16

/-- HWN a (44_special.md R217): "a←count of attached devices". -/
def execHwn (a : Operand) (s : State) : Host.Outcome State Fault Refusal := outcome (writeA a s.deviceCount s)

/-- The five register writes of HWQ, in its order (44_special.md R218). -/
def loadIdentity (d : Device) (s : State) : State :=
  ((((s.setReg .a (lowHalf d.id)).setReg .b (highHalf d.id)).setReg .c d.version).setReg .x
    (lowHalf d.manufacturer)).setReg .y (highHalf d.manufacturer)

/-- HWQ a (44_special.md R218): identity of device `a`, or the fault of an index out of range. -/
def execHwq (a : Operand) (s : State) : Host.Outcome State Fault Refusal :=
  outcome <|
    match readA a s with
    | .error f => .error f
    | .ok (av, s1) =>
      match s1.device av with
      | none => .error (.noSuchDevice av)
      | some d => .ok (loadIdentity d s1)

/-- One act of a device's handler (44_special.md R219, 10_state.md R47). -/
def deviceAction (act : DeviceAction) (s : State) : Except Fault State :=
  match act with
  | .setReg r v => .ok (s.setReg r v)
  | .setPc v => .ok { s with pc := v }
  | .setSp v => .ok { s with sp := v }
  | .setEx v => .ok { s with ex := v }
  | .setIa v => .ok { s with ia := v }
  | .setSkipping on => .ok { s with skipping := on }
  | .memWrite addr v => .ok (s.storeWord addr v)
  | .interrupt code => enqueue code s

/-- A handler's acts in order; the first fault ends the run there (60_exceptions.md R243). -/
def deviceActions : List DeviceAction → State → Except Fault State
  | [], s => .ok s
  | act :: rest, s =>
    match deviceAction act s with
    | .error f => .error f
    | .ok s' => deviceActions rest s'

/-- What the coming HWI call does; a device with no reply left returns having done nothing (assumption log 6). -/
def nextReply (replies : Supply DeviceReply) : DeviceReply := replies.head (.returns []) Config.deviceReply

/-- `deviceInterrupt(d)` (60_exceptions.md R264): the next reply is taken and carried out, and the core waits for it. A reply that never
returns leaves the core stuck (assumption log 8). -/
def deviceInterrupt (index : Word) (s : State) : Except Fault State :=
  match nextReply s.deviceReplies with
  | .neverReturns => .error (.stuckInDevice index)
  | .returns acts => deviceActions acts { s with deviceReplies := s.deviceReplies.tail }

/-- HWI a (44_special.md R219): device `a`'s handler runs, or the fault of an index out of range. -/
def execHwi (a : Operand) (s : State) : Host.Outcome State Fault Refusal :=
  outcome <|
    match readA a s with
    | .error f => .error f
    | .ok (av, s1) =>
      match s1.device av with
      | none => .error (.noSuchDevice av)
      | some _ => deviceInterrupt av s1

end Sys2Proof.Machine
end

