-- ==== Sys2Proof/Machine/Logic.lean ====
section
/-! DEFINITION. Bitwise logic and shifts (42_alu.md R160 to R165). -/

namespace Sys2Proof.Machine

/-- AND b, a (42_alu.md R160). -/
def execAnd (b a : Operand) (s : State) : Host.Outcome State Fault Refusal := outcome (combine andResult b a s)

/-- BOR b, a (42_alu.md R161). -/
def execBor (b a : Operand) (s : State) : Host.Outcome State Fault Refusal := outcome (combine borResult b a s)

/-- XOR b, a (42_alu.md R162). -/
def execXor (b a : Operand) (s : State) : Host.Outcome State Fault Refusal := outcome (combine xorResult b a s)

/-- SHR b, a (42_alu.md R163). -/
def execShr (b a : Operand) (s : State) : Host.Outcome State Fault Refusal := outcome (combineWithEx shrResult b a s)

/-- ASR b, a (42_alu.md R164). -/
def execAsr (b a : Operand) (s : State) : Host.Outcome State Fault Refusal := outcome (combineWithEx asrResult b a s)

/-- SHL b, a (42_alu.md R165). -/
def execShl (b a : Operand) (s : State) : Host.Outcome State Fault Refusal := outcome (combineWithEx shlResult b a s)

end Sys2Proof.Machine
end

