-- ==== Sys2Proof/Machine/Move.lean ====
section
/-! DEFINITION. SET, STI and STD (42_alu.md R151, R168, R169). -/

namespace Sys2Proof.Machine

/-- SET b, a (42_alu.md R151): "b←a"; `b` is not read and EX is not written. -/
def execSet (b a : Operand) (s : State) : Host.Outcome State Fault Refusal := outcome (move b a s)

/-- STI b, a (42_alu.md R168): "b←a; then I++, J++". -/
def execSti (b a : Operand) (s : State) : Host.Outcome State Fault Refusal := outcome (moveAndStep 1 b a s)

/-- STD b, a (42_alu.md R169): "b←a; then I--, J--". -/
def execStd (b a : Operand) (s : State) : Host.Outcome State Fault Refusal := outcome (moveAndStep (-1) b a s)

end Sys2Proof.Machine
end

