-- ==== Sys2Proof/Machine/Special.lean ====
section
/-! DEFINITION. Subroutine call and the interrupt instructions (44_special.md R211 to R216). -/

namespace Sys2Proof.Machine

/-- JSR a (44_special.md R211): read `a`, push the address of the next instruction, jump. -/
def execJsr (a : Operand) (s : State) : Host.Outcome State Fault Refusal :=
  outcome <|
    match readA a s with
    | .error f => .error f
    | .ok (av, s1) =>
      match pushWord s1.pc s1 with
      | .error f => .error f
      | .ok s2 => .ok { s2 with pc := av }

/-- INT a (44_special.md R212): with `fq` and `iq` both set the message is enqueued, an access point of the queue's lock
(20_memory.md R73); else it is delivered at once. -/
def execInt (a : Operand) (s : State) : Host.Outcome State Fault Refusal :=
  outcome <|
    match readA a s with
    | .error f => .error f
    | .ok (av, s1) =>
      if s1.fq && s1.iq then
        match busTurn s1 with
        | .error f => .error f
        | .ok s2 => enqueue av s2
      else deliver av s1

/-- IAG a (44_special.md R213): "a←IA". -/
def execIag (a : Operand) (s : State) : Host.Outcome State Fault Refusal := outcome (writeA a s.ia s)

/-- IAS a (44_special.md R214): "IA←a". -/
def execIas (a : Operand) (s : State) : Host.Outcome State Fault Refusal :=
  outcome <|
    match readA a s with
    | .error f => .error f
    | .ok (av, s1) => .ok { s1 with ia := av }

/-- RFI a (44_special.md R215): the return from an interrupt; the operand is resolved and never accessed, so it plays no part
here (its next word, if any, was fetched with the instruction). -/
def execRfi (_a : Operand) (s : State) : Host.Outcome State Fault Refusal := outcome (returnFromInterrupt s)

/-- IAQ a (44_special.md R216): force queuing for `a != 0`, not for 0. -/
def execIaq (a : Operand) (s : State) : Host.Outcome State Fault Refusal :=
  outcome <|
    match readA a s with
    | .error f => .error f
    | .ok (av, s1) => .ok { s1 with fq := av != 0 }

end Sys2Proof.Machine
end

