-- ==== Sys2Proof/Machine/Step.lean ====
section
/-! DEFINITION. One step of the machine: one cycle of the engine (41_cycle_and_skip.md R130). -/

namespace Sys2Proof.Machine

/-- Step 6 (41_cycle_and_skip.md R130, R135, R136, R138), the words `ws` of the instruction at `start` being fetched: the fault of a
word that spells no instruction, the skip step, or the instruction itself. -/
def executeOrSkip (start : Word) (ws : List Word) (s : State) : Host.Outcome State Fault Refusal :=
  match decode ws with
  | .error _ => .fault (.unsupportedOperation start (ws.headD 0))
  | .ok (i, _) => if s.skipping then .next (skipStep i s) else exec i s

/-- One cycle of a running core: interrupt step, fetch, execution or skip, and its end with the observer (41_cycle_and_skip.md
R130). -/
def cycle (s : State) : Host.Outcome State Fault Refusal :=
  match interruptStep s with
  | .error f => .fault f
  | .ok s1 =>
    match fetch s1 with
    | .error f => .fault f
    | .ok (ws, s2) =>
      match executeOrSkip s1.pc ws s2 with
      | .next s3 => outcome (endCycle s3)
      | .fault f => .fault f
      | .refused r => .refused r

/-- One step. A stopped or faulted core takes no further cycle (10_state.md R45): a stopped one has no step, a faulted one stays
at its fault (60_exceptions.md R241). -/
def step (s : State) : Host.Outcome State Fault Refusal :=
  match s.status with
  | .running => cycle s
  | .stopped => .refused .stopped
  | .faulted f => .fault f

/-- `s` with the instruction of bits `w` (as spec/opcode_table.json numbers them, those from `nbits` on being 0) stored where the next
step fetches: at `pc`, or at `ia` when step 1 will deliver. The core is set running and not skipping, so that the step
executes it (assumption log 10). -/
def State.withFetchWord (s : State) (nbits w : Nat) : State :=
  let s1 : State := { s with status := .running, skipping := false }
  { s1 with mem := Memory.setWords (fetchAddress s1) (tableWords nbits w) s1.mem }

end Sys2Proof.Machine
end

