-- ==== Sys2Proof/Machine/Boot.lean ====
section
/-! DEFINITION. The load-time memory interface and the start of a run (20_memory.md R64, R70; 70_reset_and_hazards.md R292, R293). No
instruction uses them. -/

namespace Sys2Proof.Machine

/-- `size()` as a Word: 65536 truncated (20_memory.md R70). -/
def Memory.size : Word := BitVec.ofNat 16 Config.memoryWords

/-- The Words of an image's bytes (20_memory.md R64); an odd byte count has no Words (93_implementation_defined.md I3;
assumption log 11). -/
def pairBytes (order : Config.ByteOrder) : List Byte → Option (List Word)
  | [] => some []
  | [_] => none
  | b0 :: b1 :: rest =>
    match pairBytes order rest with
    | none => none
    | some ws =>
      match order with
      | .big => some (wordOfBytes b0 b1 :: ws)
      | .little => some (wordOfBytes b1 b0 :: ws)

/-- `bulk_set(offset, words)` (20_memory.md R70): Word k goes to `offset + k` while that is at most 65535; the rest is dropped, not
wrapped. -/
def Memory.bulkSet (offset : Nat) : List Word → Memory → Memory
  | [], m => m
  | w :: ws, m =>
    if offset < Config.memoryWords then Memory.bulkSet (offset + 1) ws (m.setWord (BitVec.ofNat 16 offset) w)
    else m

/-- What the other agents of a run do: device threads from `init()` on until the image is loaded, from then until the first cycle
begins, and from then on; the devices in HWI; the observer. As a default they do nothing (assumption log 18). -/
structure Agents where
  beforeLoad : List BusEvent := []
  afterLoad : List BusEvent := []
  schedule : Supply (List BusEvent) := .ended
  deviceReplies : Supply DeviceReply := .ended
  stopRequests : List Bool := []
  deriving DecidableEq, Repr

/-- The machine at reset with a device set attached and the agents' coming acts given (70_reset_and_hazards.md R290, R292). -/
def State.atInit (devices : List Device) (agents : Agents) : State :=
  { State.reset with
    devices := devices
    schedule := agents.schedule
    deviceReplies := agents.deviceReplies
    stopRequests := agents.stopRequests }

/-- The state in which a run starts (70_reset_and_hazards.md R290 to R295): reset with a device set attached, whose threads may act
from `init()` on, a program image loaded at address 0, and the processor loop entered. A 257th message before that is the
fault of 60_exceptions.md R243. -/
def State.start (devices : List Device) (image : List Word) (agents : Agents := {}) : Except Fault State :=
  match busEvents agents.beforeLoad (State.atInit devices agents) with
  | .error f => .error f
  | .ok s1 => busEvents agents.afterLoad { s1 with mem := Memory.bulkSet 0 image s1.mem }

/-- The same from an image of bytes; the default byte order is big-endian (92_eei_decisions.md D5). -/
def State.startBytes (devices : List Device) (image : List Byte) (order : Config.ByteOrder := .big) (agents : Agents := {}) :
    Option (Except Fault State) :=
  (pairBytes order image).map fun words => State.start devices words agents

end Sys2Proof.Machine
end

