-- ==== Sys2Proof/Safety.lean ====
section
/-! DEFINITION. The terms statements are made in: the machine's invariant, quiet states, which memory cells a step may change, and
which faults are the spec's. -/

namespace Sys2Proof.Machine

/-- What every run keeps: the memory is canonical, the queue holds at most 256 messages (60_exceptions.md R248), and at most 65535
devices are attached (92_eei_decisions.md D16). -/
def State.inv (s : State) : Prop :=
  s.mem.wf = true ∧ s.queue.length ≤ Config.queueCapacity ∧ s.devices.length ≤ Config.maxDevices

/-- No device thread acts any more: the accesses of the core are the only ones. -/
def State.quiet (s : State) : Prop := s.schedule = .ended

/-- The messages device threads raise in a list of events, in order. -/
def raised : List BusEvent → List Word
  | [] => []
  | .interrupt m :: rest => m :: raised rest
  | .memWrite _ _ :: rest => raised rest

/-- What is to come of a supply after `n` occasions. -/
def Supply.drop {α : Type} : Nat → Supply α → Supply α
  | 0, s => s
  | n + 1, s => Supply.drop n s.tail

/-- How many messages the coming `n` turns of device threads enqueue. -/
def scheduledMessages : Nat → Supply (List BusEvent) → Nat
  | 0, _ => 0
  | n + 1, schedule => (raised (nextTurn schedule)).length + scheduledMessages n schedule.tail

/-- Device threads cannot overflow the queue: it has room for every message still to come (60_exceptions.md R243). -/
def State.roomy (s : State) : Prop :=
  ∀ n, s.queue.length + scheduledMessages n s.schedule ≤ Config.queueCapacity

/-- Is cell `k` a half of the Word at address `a`? -/
def cellOf (a : Word) (k : Nat) : Prop := k = 2 * a.toNat ∨ k = 2 * a.toNat + 1

/-- Does a device thread still to act write the Word that cell `k` belongs to? -/
def busWrites (schedule : Supply (List BusEvent)) (k : Nat) : Prop :=
  ∃ n a v, BusEvent.memWrite a v ∈ nextTurn (schedule.drop n) ∧ cellOf a k

/-- Every memory cell reads in `t` as in `s`, but for the cells of the stored addresses and those that device threads write. -/
def memoryKeptBut (stored : List Word) (s t : State) : Prop :=
  ∀ k, (∀ a ∈ stored, ¬ cellOf a k) → ¬ busWrites s.schedule k → t.mem.byteAt k = s.mem.byteAt k

/-! ## Operand accesses with no device thread acting (40_operands.md R110 to R124)

The values an instruction reads and the state it leaves, as functions of the state alone: what `readHandle` and `writePlace` come
to in a quiet state. -/

/-- What a bound operand reads (40_operands.md R113 to R121). -/
def placeValue (p : Place) (s : State) : Word :=
  match p with
  | .reg r => s.reg r
  | .mem addr => s.mem.word addr
  | .peek => s.mem.word s.sp
  | .sp => s.sp
  | .pc => s.pc
  | .ex => s.ex
  | .lit v => v

/-- The state after a bound operand is written (40_operands.md R113 to R121). -/
def putPlace (p : Place) (v : Word) (s : State) : State :=
  match p with
  | .reg r => s.setReg r v
  | .mem addr => s.storeWord addr v
  | .peek => s.storeWord s.sp v
  | .sp => { s with sp := v }
  | .pc => { s with pc := v }
  | .ex => { s with ex := v }
  | .lit _ => s

/-- The part of that write that is no store: a register, SP, PC or EX takes the value. -/
def putControl (p : Place) (v : Word) (s : State) : State :=
  match p with
  | .reg r => s.setReg r v
  | .sp => { s with sp := v }
  | .pc => { s with pc := v }
  | .ex => { s with ex := v }
  | .mem _ | .peek | .lit _ => s

/-- Where `a` acts, and the state after its first access has bound it. -/
def aSide (a : Operand) (s : State) : Place × State := bindHandle (resolve true a s) s

/-- Where `b` acts, and the state after its first access, which comes after that of `a`, has bound it. Both are resolved in the
state before either access. -/
def bSide (b a : Operand) (s : State) : Place × State := bindHandle (resolve false b s) (aSide a s).2

/-- The value of the `a` operand. -/
def aValue (a : Operand) (s : State) : Word := placeValue (aSide a s).1 (aSide a s).2

/-- The value of the `b` operand. -/
def bValue (b a : Operand) (s : State) : Word := placeValue (bSide b a s).1 (bSide b a s).2

/-- The state after `Wr(b, v)`, the `a` operand accessed before. -/
def writeB (b a : Operand) (v : Word) (s : State) : State := putPlace (bSide b a s).1 v (bSide b a s).2

/-- The addresses the write of `b` stores to: one or none. -/
def storedByB (b a : Operand) (s : State) : List Word := (storeAddress (bSide b a s).1 (bSide b a s).2).toList

/-- The addresses the write of a special operation's operand stores to: one or none. -/
def storedByA (a : Operand) (s : State) : List Word := (storeAddress (aSide a s).1 (aSide a s).2).toList

/-- The state after `Deliver(m)` (60_exceptions.md R252). -/
def delivered (m : Word) (s : State) : State :=
  if s.ia = 0 then s
  else
    { s with
      iq := true
      sp := s.sp - 2
      mem := (s.mem.setWord (s.sp - 1) s.pc).setWord (s.sp - 2) (s.reg .a)
      regs := s.regs.set .a m
      pc := s.ia }

/-- The messages a list of acts enqueues. -/
def actionMessages : List DeviceAction → Nat
  | [] => 0
  | .interrupt _ :: rest => actionMessages rest + 1
  | .setReg _ _ :: rest | .setPc _ :: rest | .setSp _ :: rest | .setEx _ :: rest | .setIa _ :: rest | .setSkipping _ :: rest
  | .memWrite _ _ :: rest => actionMessages rest

/-! ## What an instruction leaves alone -/

/-- `sp` after the operands of a basic operation are accessed: a POP as `a` has moved it up, a PUSH as `b` down
(40_operands.md R115, R116). -/
def stackMoved (b a : Operand) (s : State) : Word :=
  s.sp + (if a = .stack then 1 else 0) - (if b = .stack then 1 else 0)

/-- `sp` after the operand of a special operation is accessed. -/
def stackMovedByA (a : Operand) (s : State) : Word := s.sp + (if a = .stack then 1 else 0)

/-- Everything else the core holds is as before: run status, device set, replies and stop requests to come; the schedule has only
advanced by some turns, and the queue has gained as many messages as device threads raised in them. -/
def surroundingsKept (s t : State) : Prop :=
  t.status = s.status ∧ t.devices = s.devices ∧ t.deviceReplies = s.deviceReplies ∧ t.stopRequests = s.stopRequests ∧
  ∃ n ms, t.schedule = s.schedule.drop n ∧ t.queue = s.queue ++ ms ∧ ms.length = scheduledMessages n s.schedule

/-- The frame of the `b` operand's write: no general register but the one it names, `sp` moved by PUSH and POP only unless it names
SP, `pc` as before unless it names PC, and no memory but the Word it stores to. -/
def onlyDestinationWritten (b a : Operand) (s t : State) : Prop :=
  (∀ r, b ≠ .reg r → t.reg r = s.reg r) ∧ (b ≠ .sp → t.sp = stackMoved b a s) ∧ (b ≠ .pc → t.pc = s.pc) ∧
  memoryKeptBut (storedByB b a s) s t

/-! ## Reading instructions from memory -/

/-- The Words at `a`, `a + 1`, …, `n` of them, wrapping (30_encoding.md R80). -/
def wordsFrom (m : Memory) (a : Word) : Nat → List Word
  | 0 => []
  | n + 1 => m.word a :: wordsFrom m (a + 1) n

/-- Does an instruction word spell no instruction (30_encoding.md R89, R90)? -/
def spellsNoInstruction (w : Word) : Bool :=
  opField w ∈ [0x18, 0x19, 0x1c, 0x1d] ||
    (opField w == 0 &&
      (bField w == 0x00 || (0x02 ≤ bField w && bField w ≤ 0x07) || (0x0d ≤ bField w && bField w ≤ 0x0f) || 0x13 ≤ bField w))

/-- `f` applied to a next state. -/
def mapNext (f : State → State) : Host.Outcome State Fault Refusal → Host.Outcome State Fault Refusal
  | .next s => .next (f s)
  | .fault r => .fault r
  | .refused r => .refused r

/-- The outcome that follows a next state. -/
def thenNext (f : State → Host.Outcome State Fault Refusal) : Host.Outcome State Fault Refusal → Host.Outcome State Fault Refusal
  | .next s => f s
  | .fault r => .fault r
  | .refused r => .refused r

/-- The state with `pc` past the words of `i` (41_cycle_and_skip.md R132). -/
def pastWords (i : Instr) (s : State) : State := { s with pc := s.pc + BitVec.ofNat 16 (encode i).length }

/-! ## Faults and the delivery machine -/

/-- The code of a fault in the spec's enumeration (60_exceptions.md R240); the stuck state is none of its faults. -/
def Fault.code : Fault → Option Nat
  | .unsupportedOperation _ _ => some 1
  | .deviceOverload _ => some 2
  | .noSuchDevice _ => some 3
  | .stuckInDevice _ => none

/-- The state of the delivery machine (60_exceptions.md R253). -/
inductive DeliveryState where
  | normal
  | idle
  | queuing
  | queuingDisabled
  deriving DecidableEq, Repr

/-- Which state of R253 a machine state is in. -/
def State.delivery (s : State) : DeliveryState :=
  match s.iq, s.ia == 0 with
  | false, false => .normal
  | false, true => .idle
  | true, false => .queuing
  | true, true => .queuingDisabled

end Sys2Proof.Machine
end

