-- ==== Sys2Proof/Certificates/Slice0/Obligations.lean ====
section
/-! DEFINITION. What is stated of the machine, each statement with the rule of spec/ it comes from. A statement that says "quiet"
speaks of a state in which no device thread acts any more; the others hold for every schedule of device threads. -/

open Sys2Proof Sys2Proof.Machine

/-- A run starts with every register 0, flags clear, queue empty, running, image at 0, memInit elsewhere. States R290.
-/
def Obligations.StartStateHoldsImageAndMemInit : Prop :=
  (∀ (devices : List Device) (image : List Word), ∃ s, State.start devices image = .ok s ∧
    (∀ r, s.reg r = 0) ∧ s.pc = 0 ∧ s.sp = 0 ∧ s.ex = 0 ∧ s.ia = 0 ∧
    s.skipping = false ∧ s.iq = false ∧ s.fq = false ∧ s.queue = [] ∧ s.status = .running ∧ s.devices = devices ∧
    (∀ k, k < 65536 → ∀ w, image[k]? = some w → s.mem.word (BitVec.ofNat 16 k) = w) ∧
    (∀ a : Word, image.length ≤ a.toNat → s.mem.word a = Config.memInit a)) ∧
  State.start [] [] = .ok State.reset

/-- bulk_set stores Word k at offset + k up to 65535, drops the rest, touches nothing else; size() is 0. States R70. -/
def Obligations.BulkSetTruncatesAtMemoryEnd : Prop :=
  Memory.size = 0 ∧
  ∀ (m : Memory) (offset : Nat) (words : List Word),
    (∀ k w, words[k]? = some w → offset + k ≤ 65535 →
      (Memory.bulkSet offset words m).word (BitVec.ofNat 16 (offset + k)) = w) ∧
    (∀ a : Word, (a.toNat < offset ∨ offset + words.length ≤ a.toNat) → (Memory.bulkSet offset words m).word a = m.word a)

/-- An image's bytes pair into Words b0*256+b1 (big-endian) or b1*256+b0 (little-endian). From 20_memory.md R64. -/
def Obligations.ImageBytesPairIntoWords : Prop :=
  ∀ pairs : List (Byte × Byte),
    pairBytes .big (pairs.flatMap fun p => [p.1, p.2]) =
      some (pairs.map fun p => BitVec.ofNat 16 (p.1.toNat * 256 + p.2.toNat)) ∧
    pairBytes .little (pairs.flatMap fun p => [p.1, p.2]) =
      some (pairs.map fun p => BitVec.ofNat 16 (p.2.toNat * 256 + p.1.toNat))

/-- The machine's invariant holds at reset and at every start, which holds the image, memInit, and what device threads
wrote and raised before it. From 60_exceptions.md R248, 70_reset_and_hazards.md R293, 70_reset_and_hazards.md R295,
60_exceptions.md R265, 92_eei_decisions.md D16. The canonical form (assumption log 3) and the form of the acts before
the first cycle (assumption log 18) are the model's choice. -/
def Obligations.InvariantHoldsAtReset : Prop :=
  State.reset.inv ∧
  (∀ (devices : List Device) (image : List Word) (agents : Agents) (s : State), State.start devices image agents = .ok s →
    (devices.length ≤ 65535 → s.inv) ∧ s.queue = raised (agents.beforeLoad ++ agents.afterLoad) ∧
    (∀ k, k < 65536 → ∀ w, image[k]? = some w → (∀ v, .memWrite (BitVec.ofNat 16 k) v ∉ agents.afterLoad) →
      s.mem.word (BitVec.ofNat 16 k) = w) ∧
    (∀ a : Word, image.length ≤ a.toNat → (∀ v, .memWrite a v ∉ agents.beforeLoad ++ agents.afterLoad) →
      s.mem.word a = Config.memInit a) ∧
    (∀ es a v more, agents.afterLoad = es ++ .memWrite a v :: more → (∀ w, .memWrite a w ∉ more) → s.mem.word a = v) ∧
    (∀ es a v more, agents.beforeLoad = es ++ .memWrite a v :: more → image.length ≤ a.toNat →
      (∀ w, .memWrite a w ∉ more ++ agents.afterLoad) → s.mem.word a = v) ∧
    (∀ r, s.reg r = 0) ∧ s.pc = 0 ∧ s.sp = 0 ∧ s.ex = 0 ∧ s.ia = 0 ∧
    s.skipping = false ∧ s.iq = false ∧ s.fq = false ∧ s.status = .running ∧ s.devices = devices) ∧
  (∀ (devices : List Device) (image messages : List Word), messages.length ≤ 256 →
    ∃ agents s, State.start devices image agents = .ok s ∧ s.queue = messages)

/-- Every step keeps the memory canonical, the queue within 256 messages and the device set within 65535. From
60_exceptions.md R248, 60_exceptions.md R243, 10_state.md R46, 20_memory.md R60. The canonical form is the model's
choice: assumption log 3. -/
def Obligations.EveryStepKeepsInvariant : Prop :=
  ∀ s t : State, s.inv → step s = .next t → t.inv

/-- Decoding the encoding of any well-formed instruction gives it back, whatever Words follow. From R93, R86, R84. -/
def Obligations.DecodeInvertsEncode : Prop :=
  ∀ (i : Instr) (rest : List Word), i.wf = true → decode (encode i ++ rest) = .ok (i, rest)

/-- Whatever the decoder reads is well formed and encodes to exactly the Words it read. From R86, R93, R91. -/
def Obligations.EncodeInvertsDecode : Prop :=
  ∀ (ws rest : List Word) (i : Instr), decode ws = .ok (i, rest) → i.wf = true ∧ ws = encode i ++ rest

/-- Six words of the spec's encoding table decode to the instructions the table names. From 95_test_vectors.md 2.1,
30_encoding.md R86. -/
def Obligations.SpecWordsDecodeAsWritten : Prop :=
  decode [0x7c01, 0x0030] = .ok (.set (.reg .a) (.lit 0x0030), []) ∧
  decode [0x7a22, 0x2000, 0x0010] = .ok (.add (.indOff .b 0x0010) (.abs 0x2000), []) ∧
  decode [0x6301] = .ok (.set .stack .stack, []) ∧
  decode [0x7f54, 0x8000, 0x0003] = .ok (.ifg (.pick 0x0003) (.lit 0x8000), []) ∧
  decode [0x39ff] = .ok (.std (.ind .j) (.ind .i), []) ∧
  decode [0x8e40] = .ok (.hwi (.short 3), [])

/-- With its next words present, a word is rejected exactly when its opcode or special opcode is unsupported. States
R91. -/
def Obligations.OnlyUnsupportedOpcodesAreRejected : Prop :=
  ∀ (w : Word) (ws : List Word), nextWordCount w ≤ ws.length →
    ((∃ e, decode (w :: ws) = .error e) ↔
      (opField w = 0x18 ∨ opField w = 0x19 ∨ opField w = 0x1c ∨ opField w = 0x1d ∨
        (opField w = 0 ∧ (bField w = 0x00 ∨ (0x02 ≤ bField w ∧ bField w ≤ 0x07) ∨ (0x0d ≤ bField w ∧ bField w ≤ 0x0f) ∨
          (0x13 ≤ bField w ∧ bField w ≤ 0x1f)))))

/-- Each operand code names its form; each form acts at its place, with its value and its write; PUSH and POP move sp.
From 40_operands.md R110, 40_operands.md R113, 40_operands.md R114, 40_operands.md R115, 40_operands.md R116,
40_operands.md R117, 40_operands.md R118, 40_operands.md R119, 40_operands.md R120, 40_operands.md R121, 40_operands.md
R125, 30_encoding.md R92. The place of an inlined literal as b is the model's choice: assumption log 17. -/
def Obligations.OperandsBindAtTheirEffectiveAddress : Prop :=
  (∀ (k : Nat) (r : Reg) (n : Word) (ws : List Word), [Reg.a, .b, .c, .x, .y, .z, .i, .j][k]? = some r →
    operandOfCode k ws = .ok (.reg r, ws) ∧ operandOfCode (0x08 + k) ws = .ok (.ind r, ws) ∧
    operandOfCode (0x10 + k) (n :: ws) = .ok (.indOff r n, ws)) ∧
  (∀ (n : Word) (ws : List Word),
    operandOfCode 0x18 ws = .ok (.stack, ws) ∧ operandOfCode 0x19 ws = .ok (.peek, ws) ∧
    operandOfCode 0x1a (n :: ws) = .ok (.pick n, ws) ∧ operandOfCode 0x1b ws = .ok (.sp, ws) ∧
    operandOfCode 0x1c ws = .ok (.pc, ws) ∧ operandOfCode 0x1d ws = .ok (.ex, ws) ∧
    operandOfCode 0x1e (n :: ws) = .ok (.abs n, ws) ∧ operandOfCode 0x1f (n :: ws) = .ok (.lit n, ws)) ∧
  (∀ (c : Nat) (ws : List Word), 0x20 ≤ c → c ≤ 0x3f → ∃ o, operandOfCode c ws = .ok (o, ws) ∧
    ∀ s, aSide o s = (.lit (BitVec.ofNat 16 c - 0x21), s) ∧ aValue o s = BitVec.ofNat 16 c - 0x21) ∧
  ∀ (a : Operand) (r : Reg) (n v : Word) (k : BitVec 5) (s : State),
    let s1 := (aSide a s).2
    (bSide (.reg r) a s = (.reg r, s1) ∧ bSide .sp a s = (.sp, s1) ∧ bSide .pc a s = (.pc, s1) ∧ bSide .ex a s = (.ex, s1) ∧
      bSide (.lit n) a s = (.lit n, s1) ∧ bSide (.short k) a s = (.lit (BitVec.ofNat 16 k.toNat - 1), s1) ∧
      bSide (.ind r) a s = (.mem (s.reg r), s1) ∧ bSide (.indOff r n) a s = (.mem (s.reg r + n), s1) ∧
      bSide .stack a s = (.mem (s1.sp - 1), { s1 with sp := s1.sp - 1 }) ∧
      bSide .peek a s = (.peek, s1) ∧ storedByB .peek a s = [s1.sp] ∧
      bSide (.pick n) a s = (.mem (s.sp + n), s1) ∧ bSide (.abs n) a s = (.mem n, s1) ∧
      (∀ b, b ≠ .stack → (bSide b a s).2 = s1)) ∧
    (aSide (.reg r) s = (.reg r, s) ∧ aSide .sp s = (.sp, s) ∧ aSide .pc s = (.pc, s) ∧ aSide .ex s = (.ex, s) ∧
      aSide (.lit n) s = (.lit n, s) ∧ aSide (.short k) s = (.lit (BitVec.ofNat 16 k.toNat - 1), s) ∧
      aSide (.ind r) s = (.mem (s.reg r), s) ∧ aSide (.indOff r n) s = (.mem (s.reg r + n), s) ∧
      aSide .stack s = (.mem s.sp, { s with sp := s.sp + 1 }) ∧
      aSide .peek s = (.peek, s) ∧ storedByA .peek s = [s.sp] ∧
      aSide (.pick n) s = (.mem (s.sp + n), s) ∧ aSide (.abs n) s = (.mem n, s) ∧
      (a ≠ .stack → s1 = s)) ∧
    (aValue (.reg r) s = s.reg r ∧ aValue .sp s = s.sp ∧ aValue .pc s = s.pc ∧ aValue .ex s = s.ex ∧ aValue (.lit n) s = n ∧
      aValue (.ind r) s = s.mem.word (s.reg r) ∧ aValue (.indOff r n) s = s.mem.word (s.reg r + n) ∧
      aValue .stack s = s.mem.word s.sp ∧ aValue .peek s = s.mem.word s.sp ∧
      aValue (.pick n) s = s.mem.word (s.sp + n) ∧ aValue (.abs n) s = s.mem.word n) ∧
    (bValue (.reg r) a s = s.reg r ∧ bValue .sp a s = s1.sp ∧ bValue .pc a s = s.pc ∧ bValue .ex a s = s.ex ∧
      bValue (.lit n) a s = n ∧
      bValue (.ind r) a s = s.mem.word (s.reg r) ∧ bValue (.indOff r n) a s = s.mem.word (s.reg r + n) ∧
      bValue .stack a s = s.mem.word (s1.sp - 1) ∧ bValue .peek a s = s.mem.word s1.sp ∧
      bValue (.pick n) a s = s.mem.word (s.sp + n) ∧ bValue (.abs n) a s = s.mem.word n) ∧
    (writeB (.reg r) a v s = { s1 with regs := (writeB (.reg r) a v s).regs } ∧
      ∀ r', (writeB (.reg r) a v s).reg r' = if r' = r then v else s.reg r') ∧
    (writeB .sp a v s = { s1 with sp := v } ∧ writeB .pc a v s = { s1 with pc := v } ∧ writeB .ex a v s = { s1 with ex := v } ∧
      writeB (.lit n) a v s = s1 ∧
      writeB (.ind r) a v s = { s1 with mem := s.mem.setWord (s.reg r) v } ∧
      writeB (.indOff r n) a v s = { s1 with mem := s.mem.setWord (s.reg r + n) v } ∧
      writeB .stack a v s = { s1 with sp := s1.sp - 1, mem := s.mem.setWord (s1.sp - 1) v } ∧
      writeB .peek a v s = { s1 with mem := s.mem.setWord s1.sp v } ∧
      writeB (.pick n) a v s = { s1 with mem := s.mem.setWord (s.sp + n) v } ∧
      writeB (.abs n) a v s = { s1 with mem := s.mem.setWord n v } ∧
      ∀ x, (s.mem.setWord n v).word x = if x = n then v else s.mem.word x)

/-- A step executes the instruction decoded at pc (after step 1), pc past its words, then ends the cycle. From R130,
R132, R136, 60_exceptions.md R265, 60_exceptions.md R266. That device threads may act at the end of the cycle
(assumption log 14) and that operands are resolved after all fetches (assumption log 15) are the model's reading of the
spec. -/
def Obligations.StepRunsTheDecodedInstruction : Prop :=
  (∀ (s s1 s2 : State) (ws rest : List Word) (i : Instr), s.status = .running → interruptStep s = .ok s1 →
    fetch s1 = .ok (ws, s2) → decode ws = .ok (i, rest) →
    step s = thenNext (fun t => outcome (endCycle t)) (if s2.skipping then .next (skipStep i s2) else exec i s2)) ∧
  (∀ (s s1 : State) (i : Instr) (rest : List Word), s.status = .running → s.quiet → interruptStep s = .ok s1 →
    decode (wordsFrom s1.mem s1.pc 3) = .ok (i, rest) →
    step s = mapNext observe (if s1.skipping then .next (skipStep i (pastWords i s1)) else exec i (pastWords i s1)))

/-- While skipping, a step moves pc past the instruction and updates skipping, and does nothing else. States R138, R137.
-/
def Obligations.SkippedInstructionOnlyAdvances : Prop :=
  ∀ (s : State) (i : Instr) (rest : List Word), s.status = .running → s.quiet → s.skipping = true →
    decode (wordsFrom s.mem s.pc 3) = .ok (i, rest) →
    step s = .next (observe { s with
      pc := s.pc + BitVec.ofNat 16 (encode i).length
      skipping := decide (0x10 ≤ opField (s.mem.word s.pc) ∧ opField (s.mem.word s.pc) ≤ 0x17) })

/-- A word that spells no instruction raises UnsupportedOperation, skipping or not. States R242, R135. -/
def Obligations.UnsupportedWordFaults : Prop :=
  ∀ s s1 : State, s.status = .running → s.quiet → interruptStep s = .ok s1 →
    spellsNoInstruction (s1.mem.word s1.pc) = true →
    step s = .fault (.unsupportedOperation s1.pc (s1.mem.word s1.pc))

/-- Step 1 delivers the oldest message unless skipping or iq is set or the queue is empty. States R251. -/
def Obligations.InterruptStepTakesAtMostOneMessage : Prop :=
  ∀ s : State, s.quiet →
    ((s.skipping = true ∨ s.iq = true) → interruptStep s = .ok s) ∧
    (s.skipping = false → s.iq = false → s.queue = [] → interruptStep s = .ok s) ∧
    (∀ m rest, s.skipping = false → s.iq = false → s.queue = m :: rest →
      interruptStep s = .ok (delivered m { s with queue := rest }))

/-- Delivery with ia = 0 drops the message; else pushes pc then A, sets A, pc and iq. From 60_exceptions.md R252. -/
def Obligations.DeliveryPushesPcThenA : Prop :=
  ∀ (m : Word) (s : State), s.quiet →
    (s.ia = 0 → deliver m s = .ok s) ∧
    (s.ia ≠ 0 → ∃ t, deliver m s = .ok t ∧ t.mem.word (s.sp - 1) = s.pc ∧ t.mem.word (s.sp - 2) = s.reg .a ∧
      (∀ x, x ≠ s.sp - 1 → x ≠ s.sp - 2 → t.mem.word x = s.mem.word x) ∧
      t = { s with iq := true, sp := s.sp - 2, mem := t.mem, regs := s.regs.set .a m, pc := s.ia })

/-- Whatever device threads do, delivery changes only iq, sp, A, pc and the two stack Words. From 60_exceptions.md R252,
60_exceptions.md R259. -/
def Obligations.DeliveryLeavesTheRestAlone : Prop :=
  ∀ (m : Word) (s t : State), deliver m s = .ok t →
    t.ia = s.ia ∧ t.fq = s.fq ∧ t.skipping = s.skipping ∧ t.ex = s.ex ∧ (∀ r, r ≠ .a → t.reg r = s.reg r) ∧
    surroundingsKept s t ∧
    memoryKeptBut (if s.ia = 0 then [] else [s.sp - 1, s.sp - 2]) s t

/-- RFI right after a delivery restores pc, A and sp and clears iq. From 60_exceptions.md R260, 44_special.md R215. -/
def Obligations.ReturnUndoesDelivery : Prop :=
  ∀ (m : Word) (a : Operand) (s : State), s.quiet → s.ia ≠ 0 →
    ∃ t u, deliver m s = .ok t ∧ exec (.rfi a) t = .next u ∧
      u.regs = s.regs ∧ u.pc = s.pc ∧ u.sp = s.sp ∧ u.ex = s.ex ∧ u.ia = s.ia ∧ u.fq = s.fq ∧ u.skipping = s.skipping ∧
      u.iq = false

/-- SET writes the value of a to b, EX unchanged. States R151. -/
def Obligations.SetWritesTheSource : Prop :=
  ∀ (b a : Operand) (s : State), s.quiet → exec (.set b a) s = .next (writeB b a (aValue a s) s)

/-- ADD writes b + a to b and the carry to EX. States R152. -/
def Obligations.AddWritesSumAndCarry : Prop :=
  ∀ (b a : Operand) (s : State), s.quiet →
    exec (.add b a) s = .next { writeB b a (bValue b a s + aValue a s) s with
      ex := if 0xffff < (bValue b a s).toNat + (aValue a s).toNat then 0x0001 else 0x0000 }

/-- SUB writes b - a to b and the borrow to EX. States R153. -/
def Obligations.SubWritesDifferenceAndBorrow : Prop :=
  ∀ (b a : Operand) (s : State), s.quiet →
    exec (.sub b a) s = .next { writeB b a (bValue b a s - aValue a s) s with
      ex := if (bValue b a s).toNat < (aValue a s).toNat then 0xffff else 0x0000 }

/-- MUL writes the low half of the unsigned product to b and the high half to EX. States R154. -/
def Obligations.MulWritesProductHalves : Prop :=
  ∀ (b a : Operand) (s : State), s.quiet →
    exec (.mul b a) s = .next { writeB b a (bValue b a s * aValue a s) s with
      ex := BitVec.ofNat 16 ((bValue b a s).toNat * (aValue a s).toNat / 65536) }

/-- MLI writes the low half of the signed product to b and bits 31..16 of it to EX. States R155. -/
def Obligations.MliWritesSignedProductHalves : Prop :=
  ∀ (b a : Operand) (s : State), s.quiet →
    exec (.mli b a) s = .next { writeB b a (BitVec.ofInt 16 ((bValue b a s).toInt * (aValue a s).toInt)) s with
      ex := BitVec.ofInt 16 (((bValue b a s).toInt * (aValue a s).toInt).fdiv 65536) }

/-- DIV writes the unsigned quotient to b and 16 fraction bits to EX; a zero divisor gives 0 and 0. States R156. -/
def Obligations.DivWritesQuotientAndFraction : Prop :=
  ∀ (b a : Operand) (s : State), s.quiet →
    exec (.div b a) s = .next { writeB b a (if aValue a s = 0 then 0 else bValue b a s / aValue a s) s with
      ex := if aValue a s = 0 then 0 else BitVec.ofNat 16 ((bValue b a s).toNat * 65536 / (aValue a s).toNat) }

/-- DVI is DIV on signed values, rounding toward zero. States R157. -/
def Obligations.DviWritesSignedQuotientAndFraction : Prop :=
  ∀ (b a : Operand) (s : State), s.quiet →
    exec (.dvi b a) s = .next { writeB b a (if aValue a s = 0 then 0 else BitVec.ofInt 16 ((bValue b a s).toInt.tdiv (aValue a s).toInt)) s with
      ex := if aValue a s = 0 then 0 else BitVec.ofInt 16 (((bValue b a s).toInt * 65536).tdiv (aValue a s).toInt) }

/-- MOD writes the unsigned remainder to b; a zero divisor gives 0; EX unchanged. States R158. -/
def Obligations.ModWritesUnsignedRemainder : Prop :=
  ∀ (b a : Operand) (s : State), s.quiet →
    exec (.mod b a) s = .next (writeB b a (if aValue a s = 0 then 0 else bValue b a s % aValue a s) s)

/-- MDI writes the signed remainder, with the sign of the dividend; a zero divisor gives 0. States R159. -/
def Obligations.MdiWritesSignedRemainder : Prop :=
  ∀ (b a : Operand) (s : State), s.quiet →
    exec (.mdi b a) s = .next (writeB b a
      (if aValue a s = 0 then 0 else BitVec.ofInt 16 ((bValue b a s).toInt.tmod (aValue a s).toInt)) s)

/-- AND, BOR and XOR write the bitwise result to b, EX unchanged. States R160, R161, R162. -/
def Obligations.LogicWritesBitwiseResult : Prop :=
  ∀ (b a : Operand) (s : State), s.quiet →
    exec (.and b a) s = .next (writeB b a (bValue b a s &&& aValue a s) s) ∧
    exec (.bor b a) s = .next (writeB b a (bValue b a s ||| aValue a s) s) ∧
    exec (.xor b a) s = .next (writeB b a (bValue b a s ^^^ aValue a s) s)

/-- SHR shifts b right by the whole Word a; EX holds the bits shifted out. States R163. -/
def Obligations.ShrShiftsOutIntoEx : Prop :=
  ∀ (b a : Operand) (s : State), s.quiet →
    exec (.shr b a) s = .next { writeB b a (bValue b a s >>> (aValue a s).toNat) s with
      ex := BitVec.ofNat 16 ((bValue b a s).toNat * 65536 / 2 ^ (aValue a s).toNat) }

/-- ASR shifts the signed b right by the whole Word a; EX holds the bits shifted out. States R164. -/
def Obligations.AsrShiftsSignInAndOutIntoEx : Prop :=
  ∀ (b a : Operand) (s : State), s.quiet →
    exec (.asr b a) s = .next { writeB b a (BitVec.ofInt 16 ((bValue b a s).toInt.fdiv (2 ^ (aValue a s).toNat))) s with
      ex := BitVec.ofInt 16 (((bValue b a s).toInt * 65536).fdiv (2 ^ (aValue a s).toNat)) }

/-- SHL shifts b left by the whole Word a; EX holds the bits shifted out of the top. States R165. -/
def Obligations.ShlShiftsOutIntoEx : Prop :=
  ∀ (b a : Operand) (s : State), s.quiet →
    exec (.shl b a) s = .next { writeB b a (bValue b a s <<< (aValue a s).toNat) s with
      ex := BitVec.ofNat 16 ((bValue b a s).toNat * 2 ^ (aValue a s).toNat / 65536) }

/-- ADX writes b + a + EX to b; EX becomes 1 when the sum passes 0xffff, else 0. States R166. -/
def Obligations.AdxAddsExAndCarries : Prop :=
  ∀ (b a : Operand) (s : State), s.quiet →
    exec (.adx b a) s = .next { writeB b a (bValue b a s + aValue a s + s.ex) s with
      ex := if 0xffff < (bValue b a s).toNat + (aValue a s).toNat + s.ex.toNat then 0x0001 else 0x0000 }

/-- SBX writes b - a + EX to b; EX becomes 0xffff below 0, 1 above 0xffff, else 0. States R167. -/
def Obligations.SbxSubtractsAndAddsEx : Prop :=
  ∀ (b a : Operand) (s : State), s.quiet →
    exec (.sbx b a) s = .next { writeB b a (bValue b a s - aValue a s + s.ex) s with
      ex := if (bValue b a s).toNat + s.ex.toNat < (aValue a s).toNat then 0xffff
        else if 0xffff + (aValue a s).toNat < (bValue b a s).toNat + s.ex.toNat then 0x0001 else 0x0000 }

/-- STI and STD write a to b and then move I and J by one. States R168, R169. -/
def Obligations.BlockMovesStepIAndJ : Prop :=
  ∀ (b a : Operand) (s : State), s.quiet →
    let t := writeB b a (aValue a s) s
    exec (.sti b a) s = .next { t with regs := { t.regs with i := t.regs.i + 1, j := t.regs.j + 1 } } ∧
    exec (.std b a) s = .next { t with regs := { t.regs with i := t.regs.i - 1, j := t.regs.j - 1 } }

/-- Each conditional tests its condition and sets skipping exactly when it fails. States R191, R192, R193, R194, R195,
R196, R197, R198. -/
def Obligations.ConditionalsSetSkippingOnFailure : Prop :=
  ∀ (b a : Operand) (s : State), s.quiet →
    let av := aValue a s
    let bv := bValue b a s
    let s1 := (bSide b a s).2
    let skip := { s1 with skipping := true }
    exec (.ifb b a) s = .next (if bv &&& av ≠ 0 then s1 else skip) ∧
    exec (.ifc b a) s = .next (if bv &&& av = 0 then s1 else skip) ∧
    exec (.ife b a) s = .next (if bv = av then s1 else skip) ∧
    exec (.ifn b a) s = .next (if bv ≠ av then s1 else skip) ∧
    exec (.ifg b a) s = .next (if av.toNat < bv.toNat then s1 else skip) ∧
    exec (.ifa b a) s = .next (if av.toInt < bv.toInt then s1 else skip) ∧
    exec (.ifl b a) s = .next (if bv.toNat < av.toNat then s1 else skip) ∧
    exec (.ifu b a) s = .next (if bv.toInt < av.toInt then s1 else skip)

/-- JSR reads a, pushes the address of the next instruction and jumps to a. States R211. -/
def Obligations.JsrPushesReturnAddress : Prop :=
  ∀ (a : Operand) (s : State), s.quiet →
    let s1 := (aSide a s).2
    exec (.jsr a) s = .next { s1 with sp := s1.sp - 1, mem := s1.mem.setWord (s1.sp - 1) s.pc, pc := aValue a s }

/-- INT enqueues under fq and iq (faulting on a full queue) and delivers at once otherwise. States R212. -/
def Obligations.IntEnqueuesOrDelivers : Prop :=
  ∀ (a : Operand) (s : State), s.quiet →
    let s1 := (aSide a s).2
    (¬ (s.fq = true ∧ s.iq = true) → exec (.int a) s = .next (delivered (aValue a s) s1)) ∧
    (s.fq = true → s.iq = true → s.queue.length < 256 →
      exec (.int a) s = .next { s1 with queue := s.queue ++ [aValue a s] }) ∧
    (s.fq = true → s.iq = true → s.queue.length = 256 → exec (.int a) s = .fault (.deviceOverload (aValue a s)))

/-- IAG writes ia to a; IAS writes the value of a to ia. States R213, R214. -/
def Obligations.IagAndIasMoveTheInterruptAddress : Prop :=
  ∀ (a : Operand) (s : State), s.quiet →
    exec (.iag a) s = .next (putPlace (aSide a s).1 s.ia (aSide a s).2) ∧
    exec (.ias a) s = .next { (aSide a s).2 with ia := aValue a s }

/-- RFI clears iq, pops A, then pops pc, whatever its operand. States R215. -/
def Obligations.RfiPopsAThenPc : Prop :=
  ∀ (a : Operand) (s : State), s.quiet →
    exec (.rfi a) s = .next { s with
      iq := false
      regs := { s.regs with a := s.mem.word s.sp }
      pc := s.mem.word (s.sp + 1)
      sp := s.sp + 2 }

/-- IAQ sets fq for a nonzero a and clears it for 0. States R216. -/
def Obligations.IaqSetsForceQueuing : Prop :=
  ∀ (a : Operand) (s : State), s.quiet →
    exec (.iaq a) s = .next { (aSide a s).2 with fq := decide (aValue a s ≠ 0) }

/-- HWN writes the number of attached devices to a. States R217. -/
def Obligations.HwnWritesDeviceCount : Prop :=
  ∀ (a : Operand) (s : State), s.quiet → s.devices.length ≤ 65535 →
    ∃ n : Word, n.toNat = s.devices.length ∧ exec (.hwn a) s = .next (putPlace (aSide a s).1 n (aSide a s).2)

/-- HWQ loads A, B, C, X, Y with the device's identity; an index not below N_dev faults. States R218. -/
def Obligations.HwqSplitsIdentity : Prop :=
  ∀ (a : Operand) (s : State), s.quiet →
    let av := aValue a s
    let s1 := (aSide a s).2
    (∀ d, s.devices[av.toNat]? = some d →
      exec (.hwq a) s = .next { s1 with regs := { s1.regs with
        a := BitVec.ofNat 16 (d.id.toNat % 65536)
        b := BitVec.ofNat 16 (d.id.toNat / 65536)
        c := d.version
        x := BitVec.ofNat 16 (d.manufacturer.toNat % 65536)
        y := BitVec.ofNat 16 (d.manufacturer.toNat / 65536) } }) ∧
    (s.devices.length ≤ av.toNat → exec (.hwq a) s = .fault (.noSuchDevice av))

/-- HWI carries out the device's acts; an index not below N_dev faults, and so does a 257th message; no return is stuck.
From 44_special.md R219, 60_exceptions.md R264, 60_exceptions.md R244, 60_exceptions.md R243. The supply of replies and
what a device without one does (assumption log 6), and the stuck state as a fault (assumption log 8), are the model's
choice. -/
def Obligations.HwiRunsTheHandlerOrFaults : Prop :=
  ∀ (a : Operand) (s : State), s.quiet →
    let av := aValue a s
    let s1 := (aSide a s).2
    let rest := s.deviceReplies.tail
    (s.devices.length ≤ av.toNat → exec (.hwi a) s = .fault (.noSuchDevice av)) ∧
    (av.toNat < s.devices.length →
      (s.deviceReplies = .ended → exec (.hwi a) s = .next s1) ∧
      (nextReply s.deviceReplies = .returns [] → exec (.hwi a) s = .next { s1 with deviceReplies := rest }) ∧
      (∀ acts, nextReply s.deviceReplies = .returns acts → s.queue.length + actionMessages acts ≤ 256 →
        ∃ t, exec (.hwi a) s = .next t ∧ deviceActions acts { s1 with deviceReplies := rest } = .ok t ∧
          t.iq = s.iq ∧ t.fq = s.fq ∧ t.devices = s.devices ∧ t.status = s.status) ∧
      (∀ acts m more, nextReply s.deviceReplies = .returns (acts ++ .interrupt m :: more) →
        s.queue.length + actionMessages acts = 256 → exec (.hwi a) s = .fault (.deviceOverload m)) ∧
      (nextReply s.deviceReplies = .neverReturns → exec (.hwi a) s = .fault (.stuckInDevice av)))

/-- Any ProcessorState, any memory writes and any fitting messages are some reply to HWI. From 60_exceptions.md R264,
10_state.md R47. The supply of replies is the model's choice: assumption log 6. -/
def Obligations.DeviceMayLeaveAnyProcessorState : Prop :=
  ∀ (a : Operand) (s : State) (g : Regs) (pc sp ex ia : Word) (skipping : Bool) (writes : List (Word × Word))
    (messages : List Word), s.quiet → (aValue a s).toNat < s.devices.length → s.queue.length + messages.length ≤ 256 →
    ∃ acts, ∀ rest, exec (.hwi a) { s with deviceReplies := .item (.returns acts) rest } =
      .next { s with
        regs := g, pc := pc, sp := sp, ex := ex, ia := ia, skipping := skipping
        mem := writes.foldl (fun m w => m.setWord w.1 w.2) s.mem
        queue := s.queue ++ messages
        deviceReplies := rest }

/-- ADD to SBX that write EX change only b's destination, EX and sp by PUSH or POP, for every schedule. From 42_alu.md
R150, 10_state.md R37, 40_operands.md R124. -/
def Obligations.ExWritingOperationsFrame : Prop :=
  ∀ (b a : Operand) (i : Instr) (s t : State),
    i ∈ [Instr.add b a, Instr.sub b a, Instr.mul b a, Instr.mli b a, Instr.div b a, Instr.dvi b a,
      Instr.shr b a, Instr.asr b a, Instr.shl b a, Instr.adx b a, Instr.sbx b a] →
    exec i s = .next t →
    onlyDestinationWritten b a s t ∧ t.ia = s.ia ∧ t.iq = s.iq ∧ t.fq = s.fq ∧ t.skipping = s.skipping ∧ surroundingsKept s t

/-- SET, MOD, MDI, AND, BOR and XOR change only b's destination and sp by PUSH or POP, for every schedule. From
42_alu.md R150, 10_state.md R37, 40_operands.md R124. -/
def Obligations.OtherWritingOperationsFrame : Prop :=
  ∀ (b a : Operand) (i : Instr) (s t : State),
    i ∈ [Instr.set b a, Instr.mod b a, Instr.mdi b a, Instr.and b a, Instr.bor b a, Instr.xor b a] →
    exec i s = .next t →
    onlyDestinationWritten b a s t ∧ (b ≠ .ex → t.ex = s.ex) ∧ t.ia = s.ia ∧ t.iq = s.iq ∧ t.fq = s.fq ∧
    t.skipping = s.skipping ∧ surroundingsKept s t

/-- STI and STD change only b's destination, I, J and sp by PUSH or POP, for every schedule. From 42_alu.md R168,
42_alu.md R169, 42_alu.md R150. -/
def Obligations.BlockMovesFrame : Prop :=
  ∀ (b a : Operand) (i : Instr) (s t : State), i ∈ [Instr.sti b a, Instr.std b a] → exec i s = .next t →
    (∀ r, r ≠ .i → r ≠ .j → b ≠ .reg r → t.reg r = s.reg r) ∧
    (b ≠ .sp → t.sp = stackMoved b a s) ∧ (b ≠ .pc → t.pc = s.pc) ∧ (b ≠ .ex → t.ex = s.ex) ∧
    t.ia = s.ia ∧ t.iq = s.iq ∧ t.fq = s.fq ∧ t.skipping = s.skipping ∧ surroundingsKept s t ∧
    memoryKeptBut (storedByB b a s) s t

/-- A conditional writes nothing but skipping, and sp by a PUSH or POP operand, for every schedule. From
43_conditional.md R190. -/
def Obligations.ConditionalsFrame : Prop :=
  ∀ (b a : Operand) (i : Instr) (s t : State),
    i ∈ [Instr.ifb b a, Instr.ifc b a, Instr.ife b a, Instr.ifn b a, Instr.ifg b a, Instr.ifa b a, Instr.ifl b a,
      Instr.ifu b a] →
    exec i s = .next t →
    t.regs = s.regs ∧ t.ex = s.ex ∧ t.pc = s.pc ∧ t.sp = stackMoved b a s ∧ t.ia = s.ia ∧ t.iq = s.iq ∧ t.fq = s.fq ∧
    (t.skipping = s.skipping ∨ t.skipping = true) ∧ surroundingsKept s t ∧ memoryKeptBut [] s t

/-- What JSR, INT and RFI leave alone, where INT leaves pc, and that RFI clears iq, for every schedule. From
44_special.md R211, 44_special.md R212, 44_special.md R215, 44_special.md R210, 41_cycle_and_skip.md R133,
60_exceptions.md R252. -/
def Obligations.JumpAndInterruptFrames : Prop :=
  ∀ (a : Operand) (s t : State),
    (exec (.jsr a) s = .next t →
      t.regs = s.regs ∧ t.ex = s.ex ∧ t.ia = s.ia ∧ t.iq = s.iq ∧ t.fq = s.fq ∧ t.skipping = s.skipping ∧
      t.sp = stackMovedByA a s - 1 ∧ surroundingsKept s t ∧ memoryKeptBut [stackMovedByA a s - 1] s t) ∧
    (exec (.int a) s = .next t →
      let enters := ¬ (s.fq = true ∧ s.iq = true) ∧ s.ia ≠ 0
      (∀ r, r ≠ .a ∨ ¬ enters → t.reg r = s.reg r) ∧ t.ex = s.ex ∧ t.ia = s.ia ∧ t.fq = s.fq ∧ t.skipping = s.skipping ∧
      t.iq = (if enters then true else s.iq) ∧ t.pc = (if enters then s.ia else s.pc) ∧
      t.sp = (if enters then stackMovedByA a s - 2 else stackMovedByA a s) ∧
      t.status = s.status ∧ t.devices = s.devices ∧ t.deviceReplies = s.deviceReplies ∧ t.stopRequests = s.stopRequests ∧
      (∃ n, t.schedule = s.schedule.drop n) ∧ (∃ ms, t.queue = s.queue ++ ms) ∧
      memoryKeptBut (if enters then [stackMovedByA a s - 1, stackMovedByA a s - 2] else []) s t) ∧
    (exec (.rfi a) s = .next t →
      (∀ r, r ≠ .a → t.reg r = s.reg r) ∧ t.ex = s.ex ∧ t.ia = s.ia ∧ t.fq = s.fq ∧ t.skipping = s.skipping ∧
      t.iq = false ∧ t.sp = s.sp + 2 ∧ surroundingsKept s t ∧ memoryKeptBut [] s t)

/-- What IAG, HWN, IAS, IAQ and HWQ leave alone, for every schedule. From 44_special.md R213, 44_special.md R214,
44_special.md R216, 44_special.md R217, 44_special.md R218, 44_special.md R210. -/
def Obligations.RegisterTransferFrames : Prop :=
  ∀ (a : Operand) (s t : State),
    (∀ i ∈ [Instr.iag a, Instr.hwn a], exec i s = .next t →
      (∀ r, a ≠ .reg r → t.reg r = s.reg r) ∧ (a ≠ .ex → t.ex = s.ex) ∧ (a ≠ .pc → t.pc = s.pc) ∧
      (a ≠ .sp → t.sp = stackMovedByA a s) ∧ t.ia = s.ia ∧ t.iq = s.iq ∧ t.fq = s.fq ∧ t.skipping = s.skipping ∧
      surroundingsKept s t ∧ memoryKeptBut (storedByA a s) s t) ∧
    (exec (.ias a) s = .next t →
      t.regs = s.regs ∧ t.ex = s.ex ∧ t.pc = s.pc ∧ t.sp = stackMovedByA a s ∧ t.iq = s.iq ∧ t.fq = s.fq ∧
      t.skipping = s.skipping ∧ surroundingsKept s t ∧ memoryKeptBut [] s t) ∧
    (exec (.iaq a) s = .next t →
      t.regs = s.regs ∧ t.ex = s.ex ∧ t.pc = s.pc ∧ t.sp = stackMovedByA a s ∧ t.ia = s.ia ∧ t.iq = s.iq ∧
      t.skipping = s.skipping ∧ surroundingsKept s t ∧ memoryKeptBut [] s t) ∧
    (exec (.hwq a) s = .next t →
      t.reg .z = s.reg .z ∧ t.reg .i = s.reg .i ∧ t.reg .j = s.reg .j ∧ t.ex = s.ex ∧ t.pc = s.pc ∧
      t.sp = stackMovedByA a s ∧ t.ia = s.ia ∧ t.iq = s.iq ∧ t.fq = s.fq ∧ t.skipping = s.skipping ∧
      surroundingsKept s t ∧ memoryKeptBut [] s t)

/-- HWI leaves iq, fq, the run status and the device set alone and removes no message, for every schedule and reply.
From 44_special.md R219, 10_state.md R47, 60_exceptions.md R264. -/
def Obligations.HwiFrame : Prop :=
  ∀ (a : Operand) (s t : State), exec (.hwi a) s = .next t →
    t.iq = s.iq ∧ t.fq = s.fq ∧ t.status = s.status ∧ t.devices = s.devices ∧ t.stopRequests = s.stopRequests ∧
    (∃ n, t.schedule = s.schedule.drop n) ∧ ∃ ms, t.queue = s.queue ++ ms

/-- No basic operation stops for any operands, values and schedule, while the queue has room for device threads'
messages. From 42_alu.md R150, 43_conditional.md R190, 20_memory.md R60. -/
def Obligations.BasicOperationsNeverFault : Prop :=
  ∀ (i : Instr) (s : State), i.bOperand ≠ none → s.roomy → ∃ t, exec i s = .next t

/-- A step that ends with iq clear and began with it set executed an RFI. From 10_state.md R41, 60_exceptions.md R254,
60_exceptions.md R260. -/
def Obligations.OnlyRfiLeavesInterruptQueuing : Prop :=
  ∀ s t : State, step s = .next t → s.iq = true → t.iq = false →
    ∃ s1 s2 ws rest a, interruptStep s = .ok s1 ∧ fetch s1 = .ok (ws, s2) ∧ decode ws = .ok (.rfi a, rest) ∧
      s2.skipping = false

/-- Executing anything but a conditional or HWI leaves skipping as it was. From 41_cycle_and_skip.md R136, 10_state.md
R40. -/
def Obligations.OnlyConditionalsAndHwiWriteSkipping : Prop :=
  ∀ (i : Instr) (s t : State), exec i s = .next t → isConditional i = false → (∀ a, i ≠ .hwi a) → t.skipping = s.skipping

/-- A step only adds messages at the queue's end and takes at most its head, never while skipping or iq is set. From
60_exceptions.md R248, 60_exceptions.md R251, 41_cycle_and_skip.md R131, 41_cycle_and_skip.md R139. -/
def Obligations.QueueIsFifoAndLosesAtMostItsHead : Prop :=
  ∀ s t : State, step s = .next t →
    ∃ ms, t.queue = s.queue ++ ms ∨ (s.skipping = false ∧ s.iq = false ∧ t.queue = (s.queue ++ ms).drop 1)

/-- No step changes the attached devices or their identity. From 10_state.md R46, 60_exceptions.md R263. -/
def Obligations.DeviceSetNeverChanges : Prop :=
  ∀ s t : State, step s = .next t → t.devices = s.devices

/-- A requested stop lets the cycle finish and then ends the run; without a request the core stays running. From
60_exceptions.md R266, 70_reset_and_hazards.md R302, 10_state.md R45. The list of requests and the refusal are the
model's choice: assumption log 7. -/
def Obligations.StopTakesEffectBeforeTheNextFetch : Prop :=
  ∀ s t : State, step s = .next t →
    t.status = (if s.stopRequests.head? = some true then .stopped else .running) ∧
    (t.status = .stopped → step t = .refused .stopped)

/-- A device thread's 257th message ends the run, at each access point and before the first cycle; the 256th does not.
From 60_exceptions.md R243, 60_exceptions.md R265, 70_reset_and_hazards.md R295. The supply of turns (assumption log 5),
the access points (assumption log 14) and the form of the acts before the first cycle (assumption log 18) are the
model's choice. -/
def Obligations.DeviceThreadOverflowEndsTheRun : Prop :=
  (∀ (s : State) (m : Word),
    (s.queue.length < 256 → enqueue m s = .ok { s with queue := s.queue ++ [m] }) ∧
    (s.queue.length = 256 → enqueue m s = .error (.deviceOverload m))) ∧
  (∀ (s : State) (m : Word) (es more : List BusEvent),
    nextTurn s.schedule = es ++ .interrupt m :: more → s.queue.length + (raised es).length = 256 →
    (∀ addr, memRead addr s = .error (.deviceOverload m)) ∧ (∀ addr v, memWrite addr v s = .error (.deviceOverload m)) ∧
    (s.fq = true → s.iq = true → ∀ a, exec (.int a) s = .fault (.deviceOverload m)) ∧
    endCycle s = .error (.deviceOverload m) ∧ (s.status = .running → step s = .fault (.deviceOverload m))) ∧
  (∀ (devices : List Device) (image : List Word) (agents : Agents) (m : Word),
    (raised (agents.beforeLoad ++ agents.afterLoad))[256]? = some m →
    State.start devices image agents = .error (.deviceOverload m))

/-- A device write before the read of ADD [n] is seen; one between its read and its write is lost. From 20_memory.md
R75, 20_memory.md R66. The supply of turns and the access points are the model's choice: assumption logs 5 and 14. -/
def Obligations.ReadModifyWriteIsTwoAccesses : Prop :=
  ∀ (n v w : Word) (s : State),
    (s.schedule = .item [.memWrite n w] .ended → ∃ t, exec (.add (.abs n) (.lit v)) s = .next t ∧ t.mem.word n = w + v) ∧
    (s.schedule = .item [] (.item [.memWrite n w] .ended) → ∃ t, exec (.add (.abs n) (.lit v)) s = .next t ∧ t.mem.word n = s.mem.word n + v)

/-- A self-jump, in either encoding, leaves the whole state unchanged cycle after cycle. From 70_reset_and_hazards.md
R305. -/
def Obligations.SelfJumpChangesNothing : Prop :=
  ∀ s : State, s.status = .running → s.quiet → s.skipping = false → s.queue = [] → s.stopRequests = [] →
    ((s.mem.word s.pc = 0x7f81 ∧ s.mem.word (s.pc + 1) = s.pc) ∨
      (s.pc.toNat ≤ 30 ∧ s.mem.word s.pc = BitVec.ofNat 16 ((s.pc.toNat + 0x21) * 1024 + 0x0381))) →
    step s = .next s

/-- Carry, low-half and division laws that tie results and EX together. From 42_alu.md R171, 42_alu.md R152, 42_alu.md
R156, 42_alu.md R158. -/
def Obligations.ArithmeticLawsOfTheAlu : Prop :=
  ∀ bv av e : Word,
    (addResult bv av e).2.toNat * 65536 + (addResult bv av e).1.toNat = bv.toNat + av.toNat ∧
    ((subResult bv av e).1.toNat + av.toNat = bv.toNat + (if (subResult bv av e).2 = 0xffff then 65536 else 0)) ∧
    (mulResult bv av e).2.toNat * 65536 + (mulResult bv av e).1.toNat = bv.toNat * av.toNat ∧
    (mliResult bv av e).1 = (mulResult bv av e).1 ∧
    (av ≠ 0 → (divResult bv av e).1.toNat * av.toNat + (modResult bv av).toNat = bv.toNat ∧
      (modResult bv av).toNat < av.toNat)
end

