-- ==== Sys2Proof/Laws/Memory.lean ====
section
/-! SUPPORT. The memory's laws: read after write, every other cell kept, and the canonical form kept by every operation. -/

namespace Sys2Proof.Machine

/-! ## Bytes of a Word -/

theorem hiByte_wordOfBytes (hi lo : Byte) : hiByte (wordOfBytes hi lo) = hi := by
  apply BitVec.eq_of_toNat_eq
  simp only [hiByte, wordOfBytes, BitVec.toNat_ofNat]
  omega

theorem loByte_wordOfBytes (hi lo : Byte) : loByte (wordOfBytes hi lo) = lo := by
  apply BitVec.eq_of_toNat_eq
  simp only [loByte, wordOfBytes, BitVec.toNat_ofNat]
  omega

theorem wordOfBytes_halves (w : Word) : wordOfBytes (hiByte w) (loByte w) = w := by
  apply BitVec.eq_of_toNat_eq
  simp only [hiByte, loByte, wordOfBytes, BitVec.toNat_ofNat]
  omega

/-! ## One cell -/

theorem Memory.find_storeByte_same (m : Memory) (k : Nat) (v : Byte) :
    Memory.find k (Memory.storeByte k v m) = some v := by
  induction m with
  | nil => simp [Memory.storeByte, Memory.find]
  | cons c rest ih =>
    simp only [Memory.storeByte]
    split
    · simp [Memory.find]
    · split
      · simp [Memory.find]
      · rename_i _ h
        simp [Memory.find, h, ih]

theorem Memory.find_storeByte_other (m : Memory) {k j : Nat} (v : Byte) (h : j ≠ k) :
    Memory.find j (Memory.storeByte k v m) = Memory.find j m := by
  induction m with
  | nil => simp [Memory.storeByte, Memory.find, h]
  | cons c rest ih =>
    simp only [Memory.storeByte]
    split
    · simp [Memory.find, h]
    · split
      · rename_i _ hk
        simp [Memory.find, h, ← hk]
      · simp [Memory.find, ih]

@[simp] theorem Memory.byteAt_storeByte_same (m : Memory) (k : Nat) (v : Byte) :
    Memory.byteAt (Memory.storeByte k v m) k = v := by
  simp [Memory.byteAt, Memory.find_storeByte_same]

theorem Memory.byteAt_storeByte_other (m : Memory) {k j : Nat} (v : Byte) (h : j ≠ k) :
    Memory.byteAt (Memory.storeByte k v m) j = m.byteAt j := by
  simp [Memory.byteAt, Memory.find_storeByte_other m v h]

/-! ## One Word -/

/-- A write leaves every cell alone but the two of its Word. -/
theorem Memory.byteAt_setWord_other (m : Memory) (a v : Word) {k : Nat} (h : ¬ cellOf a k) :
    (m.setWord a v).byteAt k = m.byteAt k := by
  simp only [cellOf, not_or] at h
  rw [Memory.setWord, Memory.byteAt_storeByte_other _ _ h.2, Memory.byteAt_storeByte_other _ _ h.1]

/-- A read after a write to the same address answers the value written. -/
@[simp] theorem Memory.word_setWord_same (m : Memory) (a v : Word) : (m.setWord a v).word a = v := by
  have h : 2 * a.toNat ≠ 2 * a.toNat + 1 := by omega
  rw [Memory.word, Memory.setWord, Memory.byteAt_storeByte_other _ _ h, Memory.byteAt_storeByte_same,
    Memory.byteAt_storeByte_same, wordOfBytes_halves]

theorem cellOf_ne {a b : Word} (h : b ≠ a) : ¬ cellOf a (2 * b.toNat) ∧ ¬ cellOf a (2 * b.toNat + 1) := by
  have : b.toNat ≠ a.toNat := fun e => h (BitVec.eq_of_toNat_eq e)
  simp only [cellOf]
  omega

/-- A read elsewhere answers what it did before the write. -/
theorem Memory.word_setWord_other (m : Memory) {a b : Word} (v : Word) (h : b ≠ a) : (m.setWord a v).word b = m.word b := by
  obtain ⟨h1, h2⟩ := cellOf_ne h
  rw [Memory.word, Memory.byteAt_setWord_other _ _ _ h1, Memory.byteAt_setWord_other _ _ _ h2, Memory.word]

/-- Both cells the same, the Word is the same. -/
theorem Memory.word_congr {m m' : Memory} {a : Word} (h : ∀ k, cellOf a k → m'.byteAt k = m.byteAt k) :
    m'.word a = m.word a := by
  rw [Memory.word, Memory.word, h _ (.inl rfl), h _ (.inr rfl)]

/-- A Word nothing has written reads as `memInit` of its address (92_eei_decisions.md D4). -/
theorem Memory.word_unwritten (a : Word) : Memory.word [] a = Config.memInit a := by
  have h0 : 2 * a.toNat / 2 = a.toNat := by omega
  have h1 : (2 * a.toNat + 1) / 2 = a.toNat := by omega
  have h2 : 2 * a.toNat % 2 = 0 := by omega
  have h3 : ¬ (2 * a.toNat + 1) % 2 = 0 := by omega
  have hr : BitVec.ofNat 16 a.toNat = a := by simp
  simp only [Memory.word, Memory.byteAt, Memory.find, Option.getD_none, Memory.unwritten, h0, h1, h2, h3, hr, if_true,
    if_false, wordOfBytes_halves]

/-! ## The canonical form -/

theorem Memory.risingAbove_storeByte {m : Memory} {b k : Nat} (v : Byte) (hb : b < k) (h : Memory.risingAbove b m = true) :
    Memory.risingAbove b (Memory.storeByte k v m) = true := by
  induction m generalizing b with
  | nil => simp [Memory.storeByte, Memory.risingAbove, hb]
  | cons c rest ih =>
    simp only [Memory.risingAbove, Bool.and_eq_true, decide_eq_true_eq] at h
    simp only [Memory.storeByte]
    split
    · rename_i hk
      simp [Memory.risingAbove, hb, hk, h.2]
    · split
      · rename_i _ hk
        simpa [Memory.risingAbove, hk] using h
      · have hk : c.1 < k := by omega
        simp [Memory.risingAbove, h.1, ih hk h.2]

theorem Memory.mem_storeByte {m : Memory} {k : Nat} {v : Byte} {c : Host.Cell} (h : c ∈ Memory.storeByte k v m) :
    c = (k, v) ∨ c ∈ m := by
  induction m with
  | nil => exact .inl (List.mem_singleton.mp h)
  | cons d rest ih => grind [Memory.storeByte]

theorem Memory.rising_storeByte {m : Memory} {k : Nat} (v : Byte) (h : m.rising = true) :
    Memory.rising (Memory.storeByte k v m) = true := by
  cases m with
  | nil => rfl
  | cons c rest =>
    simp only [Memory.rising] at h
    simp only [Memory.storeByte]
    split
    · rename_i hk
      simp [Memory.rising, Memory.risingAbove, hk, h]
    · split
      · rename_i _ hk
        simpa [Memory.rising, hk] using h
      · exact Memory.risingAbove_storeByte v (by omega) h

/-- Storing a byte inside the address space keeps the canonical form. -/
theorem Memory.wf_storeByte {m : Memory} {k : Nat} (v : Byte) (hk : k < 2 * Config.memoryWords) (h : m.wf = true) :
    Memory.wf (Memory.storeByte k v m) = true := by
  simp only [Memory.wf, Bool.and_eq_true, List.all_eq_true, decide_eq_true_eq] at h ⊢
  refine ⟨Memory.rising_storeByte v h.1, fun c hc => ?_⟩
  rcases Memory.mem_storeByte hc with rfl | hm
  · exact hk
  · exact h.2 c hm

/-- Storing a Word keeps the canonical form. -/
theorem Memory.wf_setWord {m : Memory} (a v : Word) (h : m.wf = true) : (m.setWord a v).wf = true := by
  have := a.isLt
  exact Memory.wf_storeByte _ (by simp [Config.memoryWords]; omega)
    (Memory.wf_storeByte _ (by simp [Config.memoryWords]; omega) h)

/-- Loading an image keeps the canonical form. -/
theorem Memory.wf_bulkSet {m : Memory} (ws : List Word) (offset : Nat) (h : m.wf = true) :
    (Memory.bulkSet offset ws m).wf = true := by
  induction ws generalizing m offset with
  | nil => exact h
  | cons w rest ih =>
    simp only [Memory.bulkSet]
    split
    · exact ih _ (Memory.wf_setWord _ _ h)
    · exact h

/-- Placing an instruction keeps the canonical form. -/
theorem Memory.wf_setWords {m : Memory} (ws : List Word) (a : Word) (h : m.wf = true) :
    (Memory.setWords a ws m).wf = true := by
  induction ws generalizing m a with
  | nil => exact h
  | cons w rest ih => exact ih _ (Memory.wf_setWord _ _ h)

/-- Reset's memory is canonical. -/
theorem State.reset_mem_wf : State.reset.mem.wf = true := rfl

end Sys2Proof.Machine
end

