-- ==== Sys2Proof/Laws/State.lean ====
section
/-! SUPPORT. The small lemmas of the state's named updates: one per field per update, and the register file's read-after-write. -/

namespace Sys2Proof.Machine

/-! ## The register file -/

@[simp] theorem Regs.get_set_same (g : Regs) (r : Reg) (v : Word) : (g.set r v).get r = v := by
  cases r <;> rfl

theorem Regs.get_set_other (g : Regs) {r r' : Reg} (v : Word) (h : r' ≠ r) : (g.set r v).get r' = g.get r' := by
  cases r <;> cases r' <;> first | rfl | exact absurd rfl h

@[simp] theorem Regs.set_get_self (g : Regs) (r : Reg) : g.set r (g.get r) = g := by
  cases r <;> rfl

@[simp] theorem Regs.set_set_same (g : Regs) (r : Reg) (v w : Word) : (g.set r v).set r w = g.set r w := by
  cases r <;> rfl

@[simp] theorem Regs.get_zero (r : Reg) : Regs.zero.get r = 0 := by
  cases r <;> rfl

@[simp] theorem State.reg_setReg_same (s : State) (r : Reg) (v : Word) : (s.setReg r v).reg r = v :=
  Regs.get_set_same s.regs r v

theorem State.reg_setReg_other (s : State) {r r' : Reg} (v : Word) (h : r' ≠ r) : (s.setReg r v).reg r' = s.reg r' :=
  Regs.get_set_other s.regs v h

/-! ## `setReg` -/

@[simp] theorem State.setReg_regs (s : State) (r : Reg) (v : Word) : (s.setReg r v).regs = s.regs.set r v := rfl
@[simp] theorem State.setReg_pc (s : State) (r : Reg) (v : Word) : (s.setReg r v).pc = s.pc := rfl
@[simp] theorem State.setReg_sp (s : State) (r : Reg) (v : Word) : (s.setReg r v).sp = s.sp := rfl
@[simp] theorem State.setReg_ex (s : State) (r : Reg) (v : Word) : (s.setReg r v).ex = s.ex := rfl
@[simp] theorem State.setReg_ia (s : State) (r : Reg) (v : Word) : (s.setReg r v).ia = s.ia := rfl
@[simp] theorem State.setReg_skipping (s : State) (r : Reg) (v : Word) : (s.setReg r v).skipping = s.skipping := rfl
@[simp] theorem State.setReg_iq (s : State) (r : Reg) (v : Word) : (s.setReg r v).iq = s.iq := rfl
@[simp] theorem State.setReg_fq (s : State) (r : Reg) (v : Word) : (s.setReg r v).fq = s.fq := rfl
@[simp] theorem State.setReg_queue (s : State) (r : Reg) (v : Word) : (s.setReg r v).queue = s.queue := rfl
@[simp] theorem State.setReg_status (s : State) (r : Reg) (v : Word) : (s.setReg r v).status = s.status := rfl
@[simp] theorem State.setReg_mem (s : State) (r : Reg) (v : Word) : (s.setReg r v).mem = s.mem := rfl
@[simp] theorem State.setReg_devices (s : State) (r : Reg) (v : Word) : (s.setReg r v).devices = s.devices := rfl
@[simp] theorem State.setReg_schedule (s : State) (r : Reg) (v : Word) : (s.setReg r v).schedule = s.schedule := rfl
@[simp] theorem State.setReg_deviceReplies (s : State) (r : Reg) (v : Word) : (s.setReg r v).deviceReplies = s.deviceReplies := rfl
@[simp] theorem State.setReg_stopRequests (s : State) (r : Reg) (v : Word) : (s.setReg r v).stopRequests = s.stopRequests := rfl

/-! ## `storeWord` -/

@[simp] theorem State.storeWord_regs (s : State) (a v : Word) : (s.storeWord a v).regs = s.regs := rfl
@[simp] theorem State.storeWord_pc (s : State) (a v : Word) : (s.storeWord a v).pc = s.pc := rfl
@[simp] theorem State.storeWord_sp (s : State) (a v : Word) : (s.storeWord a v).sp = s.sp := rfl
@[simp] theorem State.storeWord_ex (s : State) (a v : Word) : (s.storeWord a v).ex = s.ex := rfl
@[simp] theorem State.storeWord_ia (s : State) (a v : Word) : (s.storeWord a v).ia = s.ia := rfl
@[simp] theorem State.storeWord_skipping (s : State) (a v : Word) : (s.storeWord a v).skipping = s.skipping := rfl
@[simp] theorem State.storeWord_iq (s : State) (a v : Word) : (s.storeWord a v).iq = s.iq := rfl
@[simp] theorem State.storeWord_fq (s : State) (a v : Word) : (s.storeWord a v).fq = s.fq := rfl
@[simp] theorem State.storeWord_queue (s : State) (a v : Word) : (s.storeWord a v).queue = s.queue := rfl
@[simp] theorem State.storeWord_status (s : State) (a v : Word) : (s.storeWord a v).status = s.status := rfl
@[simp] theorem State.storeWord_mem (s : State) (a v : Word) : (s.storeWord a v).mem = s.mem.setWord a v := rfl
@[simp] theorem State.storeWord_devices (s : State) (a v : Word) : (s.storeWord a v).devices = s.devices := rfl
@[simp] theorem State.storeWord_schedule (s : State) (a v : Word) : (s.storeWord a v).schedule = s.schedule := rfl
@[simp] theorem State.storeWord_deviceReplies (s : State) (a v : Word) : (s.storeWord a v).deviceReplies = s.deviceReplies := rfl
@[simp] theorem State.storeWord_stopRequests (s : State) (a v : Word) : (s.storeWord a v).stopRequests = s.stopRequests := rfl
@[simp] theorem State.storeWord_reg (s : State) (a v : Word) (r : Reg) : (s.storeWord a v).reg r = s.reg r := rfl

end Sys2Proof.Machine
end

