-- ==== Sys2Proof/Laws/Bus.lean ====
section
/-! SUPPORT. What the device threads can do at an access point, said once: they change memory, the queue and their own schedule, never
a register or a flag (60_exceptions.md R265, 10_state.md R47). -/

namespace Sys2Proof.Machine

/-! ## What is to come -/

@[simp] theorem Supply.drop_ended {α : Type} (n : Nat) : Supply.drop n (.ended : Supply α) = .ended := by
  induction n with
  | zero => rfl
  | succ n ih => exact ih

theorem Supply.drop_drop {α : Type} (m n : Nat) (s : Supply α) : (s.drop n).drop m = s.drop (n + m) := by
  induction n generalizing s with
  | zero => rw [Nat.zero_add]; rfl
  | succ n ih => rw [Nat.add_right_comm]; exact ih s.tail

@[simp] theorem scheduledMessages_ended (n : Nat) : scheduledMessages n .ended = 0 := by
  induction n with
  | zero => rfl
  | succ n ih => exact (Nat.zero_add _).trans ih

/-- The messages of `n + m` turns are those of `n` turns and those of the `m` turns after them. -/
theorem scheduledMessages_add (n m : Nat) (schedule : Supply (List BusEvent)) :
    scheduledMessages (n + m) schedule = scheduledMessages n schedule + scheduledMessages m (schedule.drop n) := by
  induction n generalizing schedule with
  | zero => simp [scheduledMessages, Supply.drop]
  | succ n ih => rw [Nat.add_right_comm]; simp only [scheduledMessages, Supply.drop, ih, Nat.add_assoc]

/-- A quiet state with a queue within its capacity is roomy. -/
theorem State.roomy_of_quiet {s : State} (h : s.quiet) (hq : s.queue.length ≤ Config.queueCapacity) : s.roomy := by
  intro n
  rw [show s.schedule = .ended from h, scheduledMessages_ended]
  exact hq

/-! ## Effects on memory, queue and schedule -/

/-- What an operation of the core may do to memory, queue and schedule, `stored` being the addresses the core itself stores to:
only the device threads' own messages are added, the queue stays within its capacity, the memory stays canonical, and a cell outside the stored
Words and the device threads' own writes reads as before. -/
structure MemEffect (stored : List Word) (s s' : State) : Prop where
  turns : ∃ n ms, s'.schedule = s.schedule.drop n ∧ s'.queue = s.queue ++ ms ∧ ms.length = scheduledMessages n s.schedule
  capacity : s.queue.length ≤ Config.queueCapacity → s'.queue.length ≤ Config.queueCapacity
  wf : s.mem.wf = true → s'.mem.wf = true
  kept : memoryKeptBut stored s s'

theorem MemEffect.refl (s : State) : MemEffect [] s s where
  turns := ⟨0, [], rfl, (List.append_nil _).symm, rfl⟩
  capacity h := h
  wf h := h
  kept _ _ _ := rfl

theorem MemEffect.schedule {p : List Word} {s s' : State} (h : MemEffect p s s') : ∃ n, s'.schedule = s.schedule.drop n := by
  obtain ⟨n, _, hn, _⟩ := h.turns
  exact ⟨n, hn⟩

theorem MemEffect.queue {p : List Word} {s s' : State} (h : MemEffect p s s') : ∃ ms, s'.queue = s.queue ++ ms := by
  obtain ⟨_, ms, _, hms, _⟩ := h.turns
  exact ⟨ms, hms⟩

theorem busWrites_drop {schedule : Supply (List BusEvent)} {n k : Nat} (h : busWrites (schedule.drop n) k) :
    busWrites schedule k := by
  obtain ⟨m, a, v, hm, hc⟩ := h
  exact ⟨n + m, a, v, by rwa [← Supply.drop_drop], hc⟩

theorem MemEffect.trans {p q : List Word} {s s' s'' : State} (h : MemEffect p s s') (h' : MemEffect q s' s'') :
    MemEffect (p ++ q) s s'' where
  turns := by
    obtain ⟨n, ms, hn, hms, hl⟩ := h.turns
    obtain ⟨m, ns, hm, hns, hl'⟩ := h'.turns
    exact ⟨n + m, ms ++ ns, by rw [hm, hn, Supply.drop_drop], by rw [hns, hms, List.append_assoc],
      by rw [List.length_append, hl, hl', hn, scheduledMessages_add]⟩
  capacity hc := h'.capacity (h.capacity hc)
  wf hw := h'.wf (h.wf hw)
  kept k hk hb := by
    obtain ⟨n, hn⟩ := h.schedule
    rw [h'.kept k (fun a ha => hk a (by simp [ha])) (fun hb' => hb (busWrites_drop (by rwa [hn] at hb'))),
      h.kept k (fun a ha => hk a (by simp [ha])) hb]

/-- Room for the messages still to come stays room. -/
theorem MemEffect.roomy {p : List Word} {s s' : State} (h : MemEffect p s s') (hr : s.roomy) : s'.roomy := by
  obtain ⟨n, ms, hn, hms, hl⟩ := h.turns
  intro m
  have := hr (n + m)
  rw [scheduledMessages_add] at this
  rw [hn, hms, List.length_append, hl]
  omega

/-- An effect reads only memory, queue and schedule, so changing any other field before or after changes nothing. -/
theorem MemEffect.congr {p : List Word} {s s' t t' : State} (h : MemEffect p s s') (hs : t.schedule = s.schedule)
    (hq : t.queue = s.queue) (hm : t.mem = s.mem) (hs' : t'.schedule = s'.schedule) (hq' : t'.queue = s'.queue)
    (hm' : t'.mem = s'.mem) : MemEffect p t t' where
  turns := by rw [hs, hs', hq, hq']; exact h.turns
  capacity := by rw [hq, hq']; exact h.capacity
  wf := by rw [hm, hm']; exact h.wf
  kept := by
    intro k hk hb
    rw [hm, hm']
    exact h.kept k hk (by rwa [← hs])

theorem MemEffect.storeWord (s : State) (a v : Word) : MemEffect [a] s (s.storeWord a v) where
  turns := ⟨0, [], rfl, (List.append_nil _).symm, rfl⟩
  capacity h := h
  wf h := Memory.wf_setWord _ _ h
  kept k hk _ := Memory.byteAt_setWord_other _ _ _ (hk a (by simp))

theorem MemEffect.weaken {p q : List Word} {s s' : State} (h : MemEffect p s s') (hpq : ∀ a ∈ p, a ∈ q) : MemEffect q s s' where
  turns := h.turns
  capacity := h.capacity
  wf := h.wf
  kept k hk hb := h.kept k (fun a ha => hk a (hpq a ha)) hb

/-! ## The queue -/

/-- All an enqueue can do: add the message to a queue that has room. -/
theorem enqueue_spec {m : Word} {s s' : State} (h : enqueue m s = .ok s') :
    s.queue.length < Config.queueCapacity ∧ s' = { s with queue := s.queue ++ [m] } := by
  unfold enqueue at h
  split at h
  · cases h
  · cases h
    exact ⟨by omega, rfl⟩

theorem enqueue_room {m : Word} {s : State} (h : s.queue.length < Config.queueCapacity) :
    enqueue m s = .ok { s with queue := s.queue ++ [m] } := by
  rw [enqueue, if_neg (by omega)]

theorem enqueue_full {m : Word} {s : State} (h : Config.queueCapacity ≤ s.queue.length) :
    enqueue m s = .error (.deviceOverload m) := by
  rw [enqueue, if_pos h]

/-! ## A turn -/

/-- What one list of events may do: its own writes are the only cells it changes, its own messages the only ones it adds. -/
theorem busEvents_spec {es : List BusEvent} {s s' : State} (h : busEvents es s = .ok s') :
    s' = { s with mem := s'.mem, queue := s'.queue } ∧
    s'.queue = s.queue ++ raised es ∧
    (s.queue.length ≤ Config.queueCapacity → s'.queue.length ≤ Config.queueCapacity) ∧
    (s.mem.wf = true → s'.mem.wf = true) ∧
    (∀ k, (∀ a v, BusEvent.memWrite a v ∈ es → ¬ cellOf a k) → s'.mem.byteAt k = s.mem.byteAt k) := by
  induction es generalizing s with
  | nil =>
    cases h
    exact ⟨rfl, by simp [raised], id, id, fun _ _ => rfl⟩
  | cons e rest ih =>
    cases e with
    | memWrite a v =>
      obtain ⟨hf, hq, hc, hw, hk⟩ := ih (s := s.storeWord a v) h
      refine ⟨by rw [hf]; rfl, hq, hc, fun hw' => hw (Memory.wf_setWord _ _ hw'), fun k hn => ?_⟩
      rw [hk k (fun b w hb => hn b w (List.mem_cons_of_mem _ hb))]
      exact Memory.byteAt_setWord_other _ _ _ (hn a v List.mem_cons_self)
    | interrupt m =>
      simp only [busEvents, busEvent] at h
      split at h
      · cases h
      · rename_i s1 h1
        obtain ⟨hlt, rfl⟩ := enqueue_spec h1
        obtain ⟨hf, hq, hc, hw, hk⟩ := ih h
        refine ⟨by rw [hf], by simp [hq, raised], fun _ => hc (by simp; omega), hw,
          fun k hn => hk k (fun b w hb => hn b w (List.mem_cons_of_mem _ hb))⟩

/-- A Word that no event writes reads as before. -/
theorem busEvents_word {es : List BusEvent} {s s' : State} {a : Word} (h : busEvents es s = .ok s')
    (hn : ∀ v, BusEvent.memWrite a v ∉ es) : s'.mem.word a = s.mem.word a := by
  refine Memory.word_congr fun k hk => (busEvents_spec h).2.2.2.2 k fun b v hm hb => hn v ?_
  obtain rfl : b = a := by
    unfold cellOf at hk hb
    exact BitVec.eq_of_toNat_eq (by omega)
  exact hm

/-- The last write to an address is what it holds. -/
theorem busEvents_last {es more : List BusEvent} {s s' : State} {a v : Word}
    (h : busEvents (es ++ .memWrite a v :: more) s = .ok s') (hn : ∀ w, BusEvent.memWrite a w ∉ more) : s'.mem.word a = v := by
  induction es generalizing s with
  | nil => rw [busEvents_word (s := s.storeWord a v) h hn]; exact Memory.word_setWord_same s.mem a v
  | cons e rest ih =>
    simp only [List.cons_append, busEvents] at h
    split at h
    · cases h
    · exact ih h

/-- Events with room for their messages all happen. -/
theorem busEvents_completes {es : List BusEvent} {s : State}
    (h : s.queue.length + (raised es).length ≤ Config.queueCapacity) : ∃ s', busEvents es s = .ok s' := by
  induction es generalizing s with
  | nil => exact ⟨s, rfl⟩
  | cons e rest ih =>
    cases e with
    | memWrite a v => exact ih (s := s.storeWord a v) h
    | interrupt m =>
      simp only [raised, List.length_cons] at h
      simp only [busEvents, busEvent, enqueue_room (show s.queue.length < Config.queueCapacity by omega)]
      exact ih (by simp; omega)

/-- Events in which a message meets a full queue end there. -/
theorem busEvents_overflow {es rest : List BusEvent} {m : Word} {s : State}
    (h : s.queue.length + (raised es).length = Config.queueCapacity) :
    busEvents (es ++ .interrupt m :: rest) s = .error (.deviceOverload m) := by
  induction es generalizing s with
  | nil => simp only [List.nil_append, busEvents, busEvent, enqueue_full (le_of_eq h.symm)]
  | cons e es ih =>
    cases e with
    | memWrite a v => exact ih (s := s.storeWord a v) h
    | interrupt k =>
      simp only [raised, List.length_cons] at h
      simp only [List.cons_append, busEvents, busEvent, enqueue_room (show s.queue.length < Config.queueCapacity by omega)]
      exact ih (by simp; omega)

/-- All an access point can do before the access itself. -/
theorem busTurn_spec {s s' : State} (h : busTurn s = .ok s') :
    s' = { s with schedule := s'.schedule, mem := s'.mem, queue := s'.queue } ∧ MemEffect [] s s' := by
  obtain ⟨hf, hq, hc, hw, hk⟩ := busEvents_spec h
  have hs : s'.schedule = s.schedule.tail := by rw [hf]
  exact ⟨by rw [hf], ⟨1, _, hs, hq, rfl⟩, hc, hw, fun k _ hb => hk k fun a v hm hcell => hb ⟨0, a, v, hm, hcell⟩⟩

theorem busTurn_completes {s : State} (h : s.roomy) : ∃ s', busTurn s = .ok s' :=
  busEvents_completes (h 1)

/-- With the device threads done, an access point is the access alone. -/
theorem busTurn_quiet {s : State} (h : s.quiet) : busTurn s = .ok s := by
  cases s
  cases h
  rfl

end Sys2Proof.Machine
end

