-- ==== Sys2Proof/Laws/Boot.lean ====
section
/-! SUPPORT. What the start of a run can do, said once (70_reset_and_hazards.md R290 to R295). -/

namespace Sys2Proof.Machine

/-- All a start can do: the reset state with the device set, what the other agents will do, and the messages raised so far; its memory
is canonical and its queue within its capacity. -/
theorem State.start_spec {devices : List Device} {image : List Word} {agents : Agents} {s : State}
    (h : State.start devices image agents = .ok s) :
    s = { State.atInit devices agents with mem := s.mem, queue := raised agents.beforeLoad ++ raised agents.afterLoad } ∧
    s.mem.wf = true ∧ s.queue.length ≤ Config.queueCapacity := by
  unfold State.start at h
  split at h
  · cases h
  · rename_i s1 h1
    obtain ⟨hf1, hq1, hc1, hw1, _⟩ := busEvents_spec h1
    obtain ⟨hf2, hq2, hc2, hw2, _⟩ := busEvents_spec h
    refine ⟨?_, hw2 (Memory.wf_bulkSet _ _ (hw1 rfl)), hc2 (hc1 (Nat.zero_le _))⟩
    rw [hf2, hq2]
    simp only [hq1]
    rw [hf1]
    simp [State.atInit, State.reset]

/-- What a start leaves in memory: what device threads wrote before the load, the image over it, and over that what they wrote after
the load. -/
theorem State.start_mem {devices : List Device} {image : List Word} {agents : Agents} {s : State}
    (h : State.start devices image agents = .ok s) :
    ∃ m : Memory, (∀ a, (∀ v, BusEvent.memWrite a v ∉ agents.beforeLoad) → m.word a = Config.memInit a) ∧
      (∀ es a v more, agents.beforeLoad = es ++ .memWrite a v :: more → (∀ w, BusEvent.memWrite a w ∉ more) → m.word a = v) ∧
      (∀ a, (∀ v, BusEvent.memWrite a v ∉ agents.afterLoad) → s.mem.word a = (Memory.bulkSet 0 image m).word a) ∧
      ∀ es a v more, agents.afterLoad = es ++ .memWrite a v :: more → (∀ w, BusEvent.memWrite a w ∉ more) → s.mem.word a = v := by
  unfold State.start at h
  split at h
  · cases h
  · rename_i s1 h1
    refine ⟨s1.mem, fun a hn => ?_, fun _ _ _ _ he hn => busEvents_last (he ▸ h1) hn, fun _ hn => by rw [busEvents_word h hn],
      fun _ _ _ _ he hn => busEvents_last (he ▸ h) hn⟩
    rw [busEvents_word h1 hn, show (State.atInit devices agents).mem = [] from rfl, Memory.word_unwritten]

/-- A start at which no device thread has acted loads the image and nothing else. -/
theorem State.start_silent (devices : List Device) (image : List Word) :
    State.start devices image =
      .ok { State.reset with devices := devices, mem := Memory.bulkSet 0 image State.reset.mem } := rfl

/-- A start completes when the messages raised before the first cycle fit the queue. -/
theorem State.start_completes {devices : List Device} {image : List Word} {agents : Agents}
    (h : (raised agents.beforeLoad).length + (raised agents.afterLoad).length ≤ Config.queueCapacity) :
    ∃ s, State.start devices image agents = .ok s := by
  unfold State.start
  obtain ⟨s1, h1⟩ := busEvents_completes (es := agents.beforeLoad) (s := State.atInit devices agents)
    (by simp [State.atInit, State.reset]; omega)
  obtain ⟨_, hq, _⟩ := busEvents_spec h1
  simp only [h1]
  exact busEvents_completes (by simp [hq, State.atInit, State.reset]; omega)

end Sys2Proof.Machine
end

