-- ==== Sys2Proof/Laws/Codec.lean ====
section
/-! SUPPORT. The fields of an encoded instruction word, operand by operand, and what the decoder reads from an operand's code. -/

namespace Sys2Proof

@[simp] theorem Reg.ofIndex_index (r : Reg) : Reg.ofIndex r.index = r := by
  cases r <;> rfl

@[simp] theorem Reg.ofIndex_add_eight (n : Nat) : Reg.ofIndex (0x08 + n) = Reg.ofIndex n := by
  simp [Reg.ofIndex]

@[simp] theorem Reg.ofIndex_add_sixteen (n : Nat) : Reg.ofIndex (0x10 + n) = Reg.ofIndex n := by
  simp [Reg.ofIndex, Nat.add_mod]

theorem Reg.index_lt (r : Reg) : r.index < 8 := by
  cases r <;> decide

/-- The 6-bit field holds every operand code (30_encoding.md R81). -/
theorem Operand.code_lt (o : Operand) : o.code < 64 := by
  cases o with
  | reg r | ind r | indOff r _ => have := r.index_lt; simp only [Operand.code]; omega
  | short k => have := k.isLt; simp only [Operand.code]; omega
  | _ => simp [Operand.code]

/-- The 5-bit field holds the code of every operand legal as `b` (30_encoding.md R85). -/
theorem Operand.code_lt_of_legalAsB {o : Operand} (h : o.legalAsB = true) : o.code < 32 := by
  cases o with
  | reg r | ind r | indOff r _ => have := r.index_lt; simp only [Operand.code]; omega
  | short k => cases h
  | _ => simp [Operand.code]

/-- Does the code of an operand take a next word: exactly when the operand carries one (30_encoding.md R83)? -/
theorem Operand.codeTakesWord_code (o : Operand) : (if codeTakesWord o.code then 1 else 0) = o.nextWords.length := by
  cases o with
  | reg r | ind r | indOff r _ => cases r <;> rfl
  | short k =>
    have : codeTakesWord (0x20 + k.toNat) = false := by
      simp only [codeTakesWord, Bool.or_eq_false_iff, Bool.and_eq_false_iff, decide_eq_false_iff_not, beq_eq_false_iff_ne]
      omega
    simp [Operand.code, Operand.nextWords, this]
  | _ => rfl

/-- The three fields of a word put together from field values come out again (30_encoding.md R81, R93). -/
theorem fields_of_word {a b o : Nat} (ha : a < 64) (hb : b < 32) (ho : o < 32) :
    aField (BitVec.ofNat 16 (a * 1024 + b * 32 + o)) = a ∧ bField (BitVec.ofNat 16 (a * 1024 + b * 32 + o)) = b ∧
    opField (BitVec.ofNat 16 (a * 1024 + b * 32 + o)) = o := by
  simp only [aField, bField, opField, BitVec.toNat_ofNat]
  omega

/-- An operand's code and next word read back as the operand (30_encoding.md R85). -/
theorem operandOfCode_code (o : Operand) (rest : List Word) :
    operandOfCode o.code (o.nextWords ++ rest) = .ok (o, rest) := by
  cases o with
  | reg r | ind r => cases r <;> rfl
  | indOff r n => cases r <;> simp [operandOfCode, Operand.code, Operand.nextWords, Reg.index, Reg.ofIndex]
  | short k =>
    have hk := k.isLt
    have h1 : ¬ (0x20 + k.toNat < 0x08) := by omega
    have h2 : ¬ (0x20 + k.toNat < 0x10) := by omega
    have h3 : ¬ (0x20 + k.toNat = 0x18) := by omega
    have h4 : ¬ (0x20 + k.toNat = 0x19) := by omega
    have h5 : ¬ (0x20 + k.toNat = 0x1b) := by omega
    have h6 : ¬ (0x20 + k.toNat = 0x1c) := by omega
    have h7 : ¬ (0x20 + k.toNat = 0x1d) := by omega
    have h8 : 0x20 ≤ 0x20 + k.toNat := by omega
    simp [operandOfCode, Operand.code, Operand.nextWords, h1, h2, h3, h4, h5, h6, h7, h8]
  | _ => rfl

end Sys2Proof
end

