-- ==== Sys2Proof/Laws/Ops.lean ====
section
/-! SUPPORT. What each shared operation can do, said once: "if it answers a next state, then …", that it completes when the queue has
room for the device threads' messages, and what it answers when the threads are quiet. -/

namespace Sys2Proof.Machine

/-- The parts of a state the device threads may change, set to those of `t`. -/
abbrev State.withBus (s t : State) : State := { s with schedule := t.schedule, mem := t.mem, queue := t.queue }

/-! ## The memory port -/

theorem memRead_spec {a v : Word} {s s' : State} (h : memRead a s = .ok (v, s')) :
    s' = s.withBus s' ∧ v = s'.mem.word a ∧ MemEffect [] s s' := by
  unfold memRead at h
  split at h
  · cases h
  · rename_i s1 h1
    cases h
    exact ⟨(busTurn_spec h1).1, rfl, (busTurn_spec h1).2⟩

theorem memRead_completes {a : Word} {s : State} (h : s.roomy) : ∃ v s', memRead a s = .ok (v, s') := by
  obtain ⟨s', h'⟩ := busTurn_completes h
  exact ⟨_, _, by rw [memRead, h']⟩

theorem memRead_quiet {a : Word} {s : State} (h : s.quiet) : memRead a s = .ok (s.mem.word a, s) := by
  rw [memRead, busTurn_quiet h]

theorem memWrite_spec {a v : Word} {s s' : State} (h : memWrite a v s = .ok s') :
    s' = s.withBus s' ∧ s'.mem.word a = v ∧ MemEffect [a] s s' := by
  unfold memWrite at h
  split at h
  · cases h
  · rename_i s1 h1
    cases h
    obtain ⟨hf, he⟩ := busTurn_spec h1
    refine ⟨?_, by simp, ?_⟩
    · rw [hf]; rfl
    · exact he.trans (.storeWord s1 a v)

theorem memWrite_completes {a v : Word} {s : State} (h : s.roomy) : ∃ s', memWrite a v s = .ok s' := by
  obtain ⟨s', h'⟩ := busTurn_completes h
  exact ⟨_, by rw [memWrite, h']⟩

theorem memWrite_quiet {a v : Word} {s : State} (h : s.quiet) : memWrite a v s = .ok (s.storeWord a v) := by
  rw [memWrite, busTurn_quiet h]

/-! ## Fetching -/

theorem nextWord_spec {v : Word} {s s' : State} (h : nextWord s = .ok (v, s')) :
    s' = { s with pc := s.pc + 1 }.withBus s' ∧ v = s'.mem.word s.pc ∧ MemEffect [] s s' := by
  unfold nextWord at h
  split at h
  · cases h
  · rename_i s1 h1
    cases h
    obtain ⟨hf, hv, he⟩ := memRead_spec h1
    exact ⟨by rw [hf], hv, he.congr rfl rfl rfl rfl rfl rfl⟩

theorem nextWord_completes {s : State} (h : s.roomy) : ∃ v s', nextWord s = .ok (v, s') := by
  obtain ⟨v, s', h'⟩ := memRead_completes (a := s.pc) h
  exact ⟨_, _, by rw [nextWord, h']⟩

theorem nextWord_quiet {s : State} (h : s.quiet) : nextWord s = .ok (s.mem.word s.pc, { s with pc := s.pc + 1 }) := by
  rw [nextWord, memRead_quiet h]

theorem advance_succ (p : Word) (n : Nat) : p + 1 + BitVec.ofNat 16 n = p + BitVec.ofNat 16 (n + 1) := by
  rw [BitVec.ofNat_add, BitVec.add_comm (BitVec.ofNat 16 n), BitVec.add_assoc]
  rfl

theorem nextWords_spec {n : Nat} {vs : List Word} {s s' : State} (h : nextWords n s = .ok (vs, s')) :
    s' = { s with pc := s.pc + BitVec.ofNat 16 n }.withBus s' ∧ vs.length = n ∧ MemEffect [] s s' := by
  induction n generalizing s s' vs with
  | zero =>
    cases h
    exact ⟨by simp, rfl, .refl s⟩
  | succ n ih =>
    simp only [nextWords] at h
    split at h
    · cases h
    · rename_i v s1 h1
      split at h
      · cases h
      · rename_i ws s2 h2
        cases h
        obtain ⟨hf1, _, he1⟩ := nextWord_spec h1
        obtain ⟨hf2, hl, he2⟩ := ih h2
        refine ⟨?_, by simp [hl], he1.trans he2⟩
        rw [hf2, hf1]
        simp only [advance_succ]

theorem nextWords_completes {n : Nat} {s : State} (h : s.roomy) : ∃ vs s', nextWords n s = .ok (vs, s') := by
  induction n generalizing s with
  | zero => exact ⟨[], s, rfl⟩
  | succ n ih =>
    obtain ⟨v, s1, h1⟩ := nextWord_completes h
    obtain ⟨vs, s2, h2⟩ := ih ((nextWord_spec h1).2.2.roomy h)
    exact ⟨v :: vs, s2, by simp [nextWords, h1, h2]⟩

theorem nextWords_quiet {n : Nat} {s : State} (h : s.quiet) :
    nextWords n s = .ok (wordsFrom s.mem s.pc n, { s with pc := s.pc + BitVec.ofNat 16 n }) := by
  induction n generalizing s with
  | zero => simp [nextWords, wordsFrom]
  | succ n ih =>
    simp only [nextWords, nextWord_quiet h, ih (s := { s with pc := s.pc + 1 }) h, wordsFrom, advance_succ]

/-! ## The stack -/

theorem pushWord_spec {v : Word} {s s' : State} (h : pushWord v s = .ok s') :
    s' = { s with sp := s.sp - 1 }.withBus s' ∧ s'.mem.word (s.sp - 1) = v ∧ MemEffect [s.sp - 1] s s' := by
  obtain ⟨hf, hv, he⟩ := memWrite_spec h
  exact ⟨hf, hv, he.congr rfl rfl rfl rfl rfl rfl⟩

theorem pushWord_completes {v : Word} {s : State} (h : s.roomy) : ∃ s', pushWord v s = .ok s' :=
  memWrite_completes (s := { s with sp := s.sp - 1 }) h

theorem pushWord_quiet {v : Word} {s : State} (h : s.quiet) :
    pushWord v s = .ok { s with sp := s.sp - 1, mem := s.mem.setWord (s.sp - 1) v } :=
  memWrite_quiet (s := { s with sp := s.sp - 1 }) h

theorem popWord_spec {v : Word} {s s' : State} (h : popWord s = .ok (v, s')) :
    s' = { s with sp := s.sp + 1 }.withBus s' ∧ v = s'.mem.word s.sp ∧ MemEffect [] s s' := by
  unfold popWord at h
  split at h
  · cases h
  · rename_i s1 h1
    cases h
    obtain ⟨hf, hv, he⟩ := memRead_spec h1
    exact ⟨by rw [hf], hv, he.congr rfl rfl rfl rfl rfl rfl⟩

theorem popWord_completes {s : State} (h : s.roomy) : ∃ v s', popWord s = .ok (v, s') := by
  obtain ⟨v, s', h'⟩ := memRead_completes (a := s.sp) h
  exact ⟨_, _, by rw [popWord, h']⟩

theorem popWord_quiet {s : State} (h : s.quiet) : popWord s = .ok (s.mem.word s.sp, { s with sp := s.sp + 1 }) := by
  rw [popWord, memRead_quiet h]

/-! ## Interrupt entry and return -/

/-- All a delivery can do: nothing with `ia = 0`; else `pc` and A on the stack, A the message, `pc` the handler's address, `iq` set. -/
theorem deliver_spec {m : Word} {s s' : State} (h : deliver m s = .ok s') :
    (s.ia = 0 ∧ s' = s) ∨
    (s.ia ≠ 0 ∧
      s' = { s with iq := true, sp := s.sp - 2, regs := s.regs.set .a m, pc := s.ia }.withBus s' ∧
      s'.mem.word (s.sp - 2) = s.reg .a ∧ MemEffect [s.sp - 1, s.sp - 2] s s') := by
  unfold deliver at h
  split at h
  · cases h
    exact .inl ⟨‹_›, rfl⟩
  · rename_i hia
    split at h
    · cases h
    · rename_i s1 h1
      split at h
      · cases h
      · rename_i s2 h2
        cases h
        obtain ⟨hf1, _, he1⟩ := pushWord_spec h1
        obtain ⟨hf2, hv2, he2⟩ := pushWord_spec h2
        have hsp : s1.sp = s.sp - 1 := by rw [hf1]
        have hsub : s1.sp - 1 = s.sp - 2 := by rw [hsp]; bv_omega
        have hreg : s1.reg .a = s.reg .a := by rw [hf1]; rfl
        have hia2 : s2.ia = s.ia := by rw [hf2, hf1]
        have hregs : s2.regs = s.regs := by rw [hf2, hf1]
        rw [hsub] at hv2 he2
        refine .inr ⟨hia, ?_, by rw [← hreg]; exact hv2, ?_⟩
        · rw [hia2, hf2, hf1]
          simp only [State.setReg]
          congr 1
          bv_omega
        · exact (he1.trans he2).congr rfl rfl rfl rfl rfl rfl

theorem deliver_completes {m : Word} {s : State} (h : s.roomy) : ∃ s', deliver m s = .ok s' := by
  unfold deliver
  split
  · exact ⟨s, rfl⟩
  · obtain ⟨s1, h1⟩ := pushWord_completes (v := s.pc) (s := { s with iq := true }) h
    obtain ⟨s2, h2⟩ := pushWord_completes (v := s1.reg .a) ((pushWord_spec h1).2.2.roomy h)
    exact ⟨_, by simp only [h1, h2]; rfl⟩

/-- All a return from an interrupt can do: A and `pc` off the stack, `iq` cleared. -/
theorem returnFromInterrupt_spec {s s' : State} (h : returnFromInterrupt s = .ok s') :
    (∃ v target, s' = { s with iq := false, sp := s.sp + 2, regs := s.regs.set .a v, pc := target }.withBus s') ∧
    MemEffect [] s s' := by
  unfold returnFromInterrupt at h
  split at h
  · cases h
  · rename_i v s1 h1
    split at h
    · cases h
    · rename_i target s2 h2
      cases h
      obtain ⟨hf1, _, he1⟩ := popWord_spec h1
      obtain ⟨hf2, _, he2⟩ := popWord_spec h2
      refine ⟨⟨v, target, ?_⟩, (he1.trans (he2.congr (t := s1) (t' := s2) rfl rfl rfl rfl rfl rfl)).congr rfl rfl rfl rfl rfl rfl⟩
      rw [hf2, hf1]
      simp only [State.setReg]
      congr 1
      bv_omega

theorem returnFromInterrupt_completes {s : State} (h : s.roomy) : ∃ s', returnFromInterrupt s = .ok s' := by
  unfold returnFromInterrupt
  obtain ⟨v, s1, h1⟩ := popWord_completes (s := { s with iq := false }) h
  obtain ⟨target, s2, h2⟩ := popWord_completes (s := s1.setReg .a v) ((popWord_spec h1).2.2.roomy h)
  exact ⟨_, by simp only [h1, h2]; rfl⟩

/-- All step 1 can do once its access point is past. -/
theorem dequeueAndDeliver_spec {s s' : State} (h : dequeueAndDeliver s = .ok s') :
    (s.queue = [] ∧ s' = s) ∨ (∃ m rest, s.queue = m :: rest ∧ deliver m { s with queue := rest } = .ok s') := by
  unfold dequeueAndDeliver at h
  split at h
  · cases h
    exact .inl ⟨‹_›, rfl⟩
  · exact .inr ⟨_, _, ‹_›, h⟩

/-! ## The end of a cycle -/

theorem observe_spec (s : State) :
    observe s = { s with status := (observe s).status, stopRequests := (observe s).stopRequests } ∧
    (observe s).status = (if s.stopRequests.head? = some true then .stopped else s.status) ∧
    (observe s).stopRequests = s.stopRequests.tail := by
  cases s with
  | mk regs pc sp ex ia skipping iq fq queue status mem devices schedule deviceReplies stopRequests =>
    match stopRequests with
    | [] => exact ⟨rfl, rfl, rfl⟩
    | true :: _ => exact ⟨rfl, rfl, rfl⟩
    | false :: _ => exact ⟨rfl, rfl, rfl⟩

/-- All the end of a cycle can do: a turn of device threads, and the observer's answer. -/
theorem endCycle_spec {s s' : State} (h : endCycle s = .ok s') :
    ∃ s1, s1 = s.withBus s1 ∧ MemEffect [] s s1 ∧ s' = observe s1 := by
  unfold endCycle at h
  split at h
  · cases h
  · rename_i s1 h1
    cases h
    exact ⟨s1, (busTurn_spec h1).1, (busTurn_spec h1).2, rfl⟩

theorem endCycle_completes {s : State} (h : s.roomy) : ∃ s', endCycle s = .ok s' := by
  obtain ⟨s1, h1⟩ := busTurn_completes h
  exact ⟨_, by rw [endCycle, h1]⟩

theorem endCycle_quiet {s : State} (h : s.quiet) : endCycle s = .ok (observe s) := by
  rw [endCycle, busTurn_quiet h]

end Sys2Proof.Machine
end

