-- ==== Sys2Proof/Laws/Operands.lean ====
section
/-! SUPPORT. What operand accesses and the shapes of instruction built on them can do, said once. -/

namespace Sys2Proof.Machine

/-! ## One operand -/

theorem bindHandle_bus (h : Handle) (s : State) :
    (bindHandle h s).2.schedule = s.schedule ∧ (bindHandle h s).2.queue = s.queue ∧ (bindHandle h s).2.mem = s.mem := by
  cases h <;> exact ⟨rfl, rfl, rfl⟩

theorem bindHandle_withBus (h : Handle) (s t : State) :
    bindHandle h (s.withBus t) = ((bindHandle h s).1, (bindHandle h s).2.withBus t) := by
  cases h <;> rfl

theorem readPlace_spec {p : Place} {v : Word} {s s' : State} (h : readPlace p s = .ok (v, s')) :
    s' = s.withBus s' ∧ v = placeValue p s' ∧ MemEffect [] s s' := by
  cases p with
  | mem addr => exact memRead_spec h
  | peek =>
    obtain ⟨hf, hv, he⟩ := memRead_spec h
    exact ⟨hf, by rw [hv, placeValue, hf], he⟩
  | reg _ | sp | pc | ex | lit _ =>
    cases h
    exact ⟨rfl, rfl, .refl s⟩

theorem readPlace_completes {p : Place} {s : State} (h : s.roomy) : ∃ v s', readPlace p s = .ok (v, s') := by
  cases p with
  | mem addr => exact memRead_completes h
  | peek => exact memRead_completes h
  | reg _ | sp | pc | ex | lit _ => exact ⟨_, _, rfl⟩

theorem readPlace_quiet {p : Place} {s : State} (h : s.quiet) : readPlace p s = .ok (placeValue p s, s) := by
  cases p with
  | mem addr => exact memRead_quiet h
  | peek => exact memRead_quiet h
  | reg _ | sp | pc | ex | lit _ => rfl

theorem writePlace_spec {p : Place} {v : Word} {s s' : State} (h : writePlace p v s = .ok s') :
    s' = (putControl p v s).withBus s' ∧ MemEffect (storeAddress p s).toList s s' := by
  cases p with
  | mem addr =>
    obtain ⟨hf, _, he⟩ := memWrite_spec h
    exact ⟨hf, he⟩
  | peek =>
    obtain ⟨hf, _, he⟩ := memWrite_spec h
    exact ⟨hf, he⟩
  | reg _ | sp | pc | ex | lit _ =>
    cases h
    exact ⟨rfl, (MemEffect.refl s).congr rfl rfl rfl rfl rfl rfl⟩

theorem writePlace_completes {p : Place} {v : Word} {s : State} (h : s.roomy) : ∃ s', writePlace p v s = .ok s' := by
  cases p with
  | mem addr => exact memWrite_completes h
  | peek => exact memWrite_completes h
  | reg _ | sp | pc | ex | lit _ => exact ⟨_, rfl⟩

theorem writePlace_quiet {p : Place} {v : Word} {s : State} (h : s.quiet) : writePlace p v s = .ok (putPlace p v s) := by
  cases p with
  | mem addr => exact memWrite_quiet h
  | peek => exact memWrite_quiet h
  | reg _ | sp | pc | ex | lit _ => rfl

theorem putControl_withBus (p : Place) (v : Word) (s t : State) : putControl p v (s.withBus t) = (putControl p v s).withBus t := by
  cases p <;> rfl

theorem storeAddress_withBus (p : Place) (s t : State) : storeAddress p (s.withBus t) = storeAddress p s := by
  cases p <;> rfl

/-! ## Handles -/

theorem readHandle_spec {hd : Handle} {v : Word} {p : Place} {s s' : State} (h : readHandle hd s = .ok (v, p, s')) :
    p = (bindHandle hd s).1 ∧ s' = (bindHandle hd s).2.withBus s' ∧ v = placeValue p s' ∧ MemEffect [] s s' := by
  unfold readHandle at h
  split at h
  · cases h
  · rename_i w s1 h1
    cases h
    obtain ⟨hf, hv, he⟩ := readPlace_spec h1
    obtain ⟨h1, h2, h3⟩ := bindHandle_bus hd s
    exact ⟨rfl, hf, hv, he.congr h1.symm h2.symm h3.symm rfl rfl rfl⟩

theorem roomy_bindHandle {hd : Handle} {s : State} (h : s.roomy) : (bindHandle hd s).2.roomy := by
  cases hd <;> exact h

theorem readHandle_completes {hd : Handle} {s : State} (h : s.roomy) : ∃ v p s', readHandle hd s = .ok (v, p, s') := by
  obtain ⟨v, s', h'⟩ := readPlace_completes (p := (bindHandle hd s).1) (roomy_bindHandle (hd := hd) h)
  exact ⟨_, _, _, by rw [readHandle, h']⟩

theorem quiet_bindHandle {hd : Handle} {s : State} (h : s.quiet) : (bindHandle hd s).2.quiet := by
  cases hd <;> exact h

theorem readHandle_quiet {hd : Handle} {s : State} (h : s.quiet) :
    readHandle hd s = .ok (placeValue (bindHandle hd s).1 (bindHandle hd s).2, bindHandle hd s) := by
  rw [readHandle, readPlace_quiet (quiet_bindHandle h)]

theorem writeHandle_spec {hd : Handle} {v : Word} {s s' : State} (h : writeHandle hd v s = .ok s') :
    s' = (putControl (bindHandle hd s).1 v (bindHandle hd s).2).withBus s' ∧
    MemEffect (storeAddress (bindHandle hd s).1 (bindHandle hd s).2).toList s s' := by
  obtain ⟨hf, he⟩ := writePlace_spec h
  obtain ⟨h1, h2, h3⟩ := bindHandle_bus hd s
  exact ⟨hf, he.congr h1.symm h2.symm h3.symm rfl rfl rfl⟩

theorem writeHandle_completes {hd : Handle} {v : Word} {s : State} (h : s.roomy) : ∃ s', writeHandle hd v s = .ok s' :=
  writePlace_completes (roomy_bindHandle h)

theorem writeHandle_quiet {hd : Handle} {v : Word} {s : State} (h : s.quiet) :
    writeHandle hd v s = .ok (putPlace (bindHandle hd s).1 v (bindHandle hd s).2) :=
  writePlace_quiet (quiet_bindHandle h)

/-! ## The operand of a special operation -/

theorem readA_spec {a : Operand} {v : Word} {s s' : State} (h : readA a s = .ok (v, s')) :
    s' = (aSide a s).2.withBus s' ∧ v = placeValue (aSide a s).1 s' ∧ MemEffect [] s s' := by
  unfold readA at h
  split at h
  · cases h
  · rename_i w p s1 h1
    cases h
    obtain ⟨hp, hf, hv, he⟩ := readHandle_spec h1
    subst hp
    exact ⟨hf, hv, he⟩

theorem readA_completes {a : Operand} {s : State} (h : s.roomy) : ∃ v s', readA a s = .ok (v, s') := by
  obtain ⟨v, p, s', h'⟩ := readHandle_completes (hd := resolve true a s) h
  exact ⟨_, _, by rw [readA, h']⟩

theorem readA_quiet {a : Operand} {s : State} (h : s.quiet) : readA a s = .ok (aValue a s, (aSide a s).2) := by
  rw [readA, readHandle_quiet h]
  rfl

theorem quiet_aSide {a : Operand} {s : State} (h : s.quiet) : (aSide a s).2.quiet := quiet_bindHandle h

/-! ## Both operands of a basic operation -/

theorem readBoth_spec {b a : Operand} {bv av : Word} {p : Place} {s s' : State} (h : readBoth b a s = .ok (bv, av, p, s')) :
    p = (bSide b a s).1 ∧ s' = (bSide b a s).2.withBus s' ∧ bv = placeValue p s' ∧ MemEffect [] s s' := by
  unfold readBoth at h
  split at h
  · cases h
  · rename_i w q s1 h1
    split at h
    · cases h
    · rename_i bw q2 s2 h2
      cases h
      obtain ⟨_, hf1, _, he1⟩ := readHandle_spec h1
      obtain ⟨hp, hf2, hv, he2⟩ := readHandle_spec h2
      have hb := bindHandle_withBus (resolve false b s) (aSide a s).2 s1
      rw [show (aSide a s).2.withBus s1 = s1 from hf1.symm] at hb
      refine ⟨by rw [hp, hb]; rfl, ?_, hv, he1.trans he2⟩
      rw [hf2, hb]
      rfl

theorem readBoth_completes {b a : Operand} {s : State} (h : s.roomy) : ∃ bv av p s', readBoth b a s = .ok (bv, av, p, s') := by
  obtain ⟨av, q, s1, h1⟩ := readHandle_completes (hd := resolve true a s) h
  obtain ⟨bv, p, s2, h2⟩ := readHandle_completes (hd := resolve false b s) ((readHandle_spec h1).2.2.2.roomy h)
  exact ⟨_, _, _, _, by rw [readBoth, h1]; simp only [h2]; rfl⟩

theorem readBoth_quiet {b a : Operand} {s : State} (h : s.quiet) :
    readBoth b a s = .ok (bValue b a s, aValue a s, bSide b a s) := by
  rw [readBoth, readHandle_quiet h]
  simp only []
  rw [readHandle_quiet (quiet_bindHandle h)]
  rfl

theorem quiet_bSide {b a : Operand} {s : State} (h : s.quiet) : (bSide b a s).2.quiet := quiet_bindHandle (quiet_bindHandle h)

/-- Binding and reading leave EX alone. -/
theorem bSide_ex (b a : Operand) (s : State) : (bSide b a s).2.ex = s.ex := by
  simp only [bSide, aSide]
  cases resolve true a s <;> cases resolve false b s <;> rfl

/-! ## The shapes -/

/-- All a basic operation that writes EX can do. -/
theorem combineWithEx_spec {f : Word → Word → Word → Word × Word} {b a : Operand} {s s' : State}
    (h : combineWithEx f b a s = .ok s') :
    (∃ bv av, s' = { putControl (bSide b a s).1 (f bv av s.ex).1 (bSide b a s).2 with ex := (f bv av s.ex).2 }.withBus s') ∧
    MemEffect (storedByB b a s) s s' := by
  unfold combineWithEx at h
  split at h
  · cases h
  · rename_i bv av p s1 h1
    split at h
    · cases h
    · rename_i s2 h2
      cases h
      obtain ⟨hp, hf1, _, he1⟩ := readBoth_spec h1
      obtain ⟨hf2, he2⟩ := writePlace_spec h2
      have hex : s1.ex = s.ex := by rw [hf1]; exact bSide_ex b a s
      rw [hf1, storeAddress_withBus, ← hf1, hp] at he2
      rw [hf1, putControl_withBus, hp] at hf2
      refine ⟨⟨bv, av, ?_⟩, (he1.trans he2).congr rfl rfl rfl rfl rfl rfl⟩
      rw [hf2]
      simp only [bSide_ex, hex]

theorem combineWithEx_completes {f : Word → Word → Word → Word × Word} {b a : Operand} {s : State} (h : s.roomy) :
    ∃ s', combineWithEx f b a s = .ok s' := by
  obtain ⟨bv, av, p, s1, h1⟩ := readBoth_completes (b := b) (a := a) h
  obtain ⟨s2, h2⟩ := writePlace_completes (p := p) (v := (f bv av s1.ex).1) ((readBoth_spec h1).2.2.2.roomy h)
  exact ⟨_, by rw [combineWithEx, h1]; simp only [h2]; rfl⟩

theorem combineWithEx_quiet {f : Word → Word → Word → Word × Word} {b a : Operand} {s : State} (h : s.quiet) :
    combineWithEx f b a s =
      .ok { writeB b a (f (bValue b a s) (aValue a s) s.ex).1 s with ex := (f (bValue b a s) (aValue a s) s.ex).2 } := by
  rw [combineWithEx, readBoth_quiet h]
  simp only [writePlace_quiet (quiet_bSide h), bSide_ex]
  rfl

/-- All a basic operation that leaves EX alone can do. -/
theorem combine_spec {f : Word → Word → Word} {b a : Operand} {s s' : State} (h : combine f b a s = .ok s') :
    (∃ bv av, s' = (putControl (bSide b a s).1 (f bv av) (bSide b a s).2).withBus s') ∧ MemEffect (storedByB b a s) s s' := by
  unfold combine at h
  split at h
  · cases h
  · rename_i bv av p s1 h1
    obtain ⟨hp, hf1, _, he1⟩ := readBoth_spec h1
    obtain ⟨hf2, he2⟩ := writePlace_spec h
    rw [hf1, storeAddress_withBus, ← hf1, hp] at he2
    rw [hf1, putControl_withBus, hp] at hf2
    exact ⟨⟨bv, av, hf2⟩, he1.trans he2⟩

theorem combine_completes {f : Word → Word → Word} {b a : Operand} {s : State} (h : s.roomy) : ∃ s', combine f b a s = .ok s' := by
  obtain ⟨bv, av, p, s1, h1⟩ := readBoth_completes (b := b) (a := a) h
  obtain ⟨s2, h2⟩ := writePlace_completes (p := p) (v := f bv av) ((readBoth_spec h1).2.2.2.roomy h)
  exact ⟨s2, by rw [combine, h1]; simp only [h2]⟩

theorem combine_quiet {f : Word → Word → Word} {b a : Operand} {s : State} (h : s.quiet) :
    combine f b a s = .ok (writeB b a (f (bValue b a s) (aValue a s)) s) := by
  rw [combine, readBoth_quiet h]
  exact writePlace_quiet (quiet_bSide h)

/-- All a move can do. -/
theorem move_spec {b a : Operand} {s s' : State} (h : move b a s = .ok s') :
    (∃ v, s' = (putControl (bSide b a s).1 v (bSide b a s).2).withBus s') ∧ MemEffect (storedByB b a s) s s' := by
  unfold move at h
  split at h
  · cases h
  · rename_i av q s1 h1
    obtain ⟨_, hf1, _, he1⟩ := readHandle_spec h1
    obtain ⟨hf2, he2⟩ := writeHandle_spec h
    have hb := bindHandle_withBus (resolve false b s) (aSide a s).2 s1
    rw [show (aSide a s).2.withBus s1 = s1 from hf1.symm] at hb
    rw [hb, storeAddress_withBus] at he2
    rw [hb, putControl_withBus] at hf2
    exact ⟨⟨av, hf2⟩, he1.trans he2⟩

theorem move_completes {b a : Operand} {s : State} (h : s.roomy) : ∃ s', move b a s = .ok s' := by
  obtain ⟨av, q, s1, h1⟩ := readHandle_completes (hd := resolve true a s) h
  obtain ⟨s2, h2⟩ := writeHandle_completes (hd := resolve false b s) (v := av) ((readHandle_spec h1).2.2.2.roomy h)
  exact ⟨s2, by rw [move, h1]; simp only [h2]⟩

theorem move_quiet {b a : Operand} {s : State} (h : s.quiet) : move b a s = .ok (writeB b a (aValue a s) s) := by
  rw [move, readHandle_quiet h]
  exact writeHandle_quiet (quiet_bindHandle h)

/-- All an executed conditional can do. -/
theorem conditional_spec {cond : Word → Word → Bool} {b a : Operand} {s s' : State} (h : conditional cond b a s = .ok s') :
    (∃ bv av, s' = (if cond bv av then (bSide b a s).2 else { (bSide b a s).2 with skipping := true }).withBus s') ∧
    MemEffect [] s s' := by
  unfold conditional at h
  split at h
  · cases h
  · rename_i bv av p s1 h1
    cases h
    obtain ⟨_, hf1, _, he1⟩ := readBoth_spec h1
    constructor
    · refine ⟨bv, av, ?_⟩
      split <;> rw [hf1]
    · split
      · exact he1
      · exact he1.congr rfl rfl rfl rfl rfl rfl

theorem conditional_completes {cond : Word → Word → Bool} {b a : Operand} {s : State} (h : s.roomy) :
    ∃ s', conditional cond b a s = .ok s' := by
  obtain ⟨bv, av, p, s1, h1⟩ := readBoth_completes (b := b) (a := a) h
  exact ⟨_, by rw [conditional, h1]⟩

theorem conditional_quiet {cond : Word → Word → Bool} {b a : Operand} {s : State} (h : s.quiet) :
    conditional cond b a s =
      .ok (if cond (bValue b a s) (aValue a s) then (bSide b a s).2 else { (bSide b a s).2 with skipping := true }) := by
  rw [conditional, readBoth_quiet h]

end Sys2Proof.Machine
end

