-- ==== Sys2Proof/Laws/Hardware.lean ====
section
/-! SUPPORT. What a device's handler can do during HWI, said once (10_state.md R47, 60_exceptions.md R264). -/

namespace Sys2Proof.Machine

/-- What the acts of a handler may leave: never another `iq` or `fq`, run status, device set, or list of what is to come. -/
structure DeviceEffect (s s' : State) : Prop where
  iq : s'.iq = s.iq
  fq : s'.fq = s.fq
  status : s'.status = s.status
  devices : s'.devices = s.devices
  schedule : s'.schedule = s.schedule
  stopRequests : s'.stopRequests = s.stopRequests
  queue : ∃ ms, s'.queue = s.queue ++ ms
  capacity : s.queue.length ≤ Config.queueCapacity → s'.queue.length ≤ Config.queueCapacity
  wf : s.mem.wf = true → s'.mem.wf = true

theorem deviceAction_spec {act : DeviceAction} {s s' : State} (h : deviceAction act s = .ok s') :
    DeviceEffect s s' ∧ s'.deviceReplies = s.deviceReplies := by
  cases act with
  | interrupt code =>
    obtain ⟨hlt, rfl⟩ := enqueue_spec h
    exact ⟨⟨rfl, rfl, rfl, rfl, rfl, rfl, ⟨[code], rfl⟩, fun _ => by simp; omega, id⟩, rfl⟩
  | memWrite a v =>
    cases h
    exact ⟨⟨rfl, rfl, rfl, rfl, rfl, rfl, ⟨[], by simp⟩, id, Memory.wf_setWord a v⟩, rfl⟩
  | setReg _ _ | setPc _ | setSp _ | setEx _ | setIa _ | setSkipping _ =>
    cases h
    exact ⟨⟨rfl, rfl, rfl, rfl, rfl, rfl, ⟨[], by simp⟩, id, id⟩, rfl⟩

theorem DeviceEffect.trans {s s' s'' : State} (h : DeviceEffect s s') (h' : DeviceEffect s' s'') : DeviceEffect s s'' where
  iq := h'.iq.trans h.iq
  fq := h'.fq.trans h.fq
  status := h'.status.trans h.status
  devices := h'.devices.trans h.devices
  schedule := h'.schedule.trans h.schedule
  stopRequests := h'.stopRequests.trans h.stopRequests
  queue := by
    obtain ⟨ms, hms⟩ := h.queue
    obtain ⟨ns, hns⟩ := h'.queue
    exact ⟨ms ++ ns, by rw [hns, hms, List.append_assoc]⟩
  capacity hc := h'.capacity (h.capacity hc)
  wf hw := h'.wf (h.wf hw)

theorem DeviceEffect.refl (s : State) : DeviceEffect s s :=
  ⟨rfl, rfl, rfl, rfl, rfl, rfl, ⟨[], by simp⟩, id, id⟩

theorem deviceActions_spec {acts : List DeviceAction} {s s' : State} (h : deviceActions acts s = .ok s') :
    DeviceEffect s s' ∧ s'.deviceReplies = s.deviceReplies := by
  induction acts generalizing s with
  | nil =>
    cases h
    exact ⟨.refl _, rfl⟩
  | cons act rest ih =>
    simp only [deviceActions] at h
    split at h
    · cases h
    · rename_i s1 h1
      obtain ⟨he1, hr1⟩ := deviceAction_spec h1
      obtain ⟨he2, hr2⟩ := ih h
      exact ⟨he1.trans he2, hr2.trans hr1⟩

/-- Acts with room for their messages all happen. -/
theorem deviceActions_completes {acts : List DeviceAction} {s : State}
    (h : s.queue.length + actionMessages acts ≤ Config.queueCapacity) : ∃ s', deviceActions acts s = .ok s' := by
  induction acts generalizing s with
  | nil => exact ⟨s, rfl⟩
  | cons act rest ih =>
    cases act with
    | interrupt code =>
      simp only [actionMessages] at h
      simp only [deviceActions, deviceAction, enqueue_room (show s.queue.length < Config.queueCapacity by omega)]
      exact ih (by simp; omega)
    | setReg _ _ | setPc _ | setSp _ | setEx _ | setIa _ | setSkipping _ | memWrite _ _ => exact ih h

/-- Acts in which a message meets a full queue end there. -/
theorem deviceActions_overflow {acts more : List DeviceAction} {m : Word} {s : State}
    (h : s.queue.length + actionMessages acts = Config.queueCapacity) :
    deviceActions (acts ++ .interrupt m :: more) s = .error (.deviceOverload m) := by
  induction acts generalizing s with
  | nil => simp only [List.nil_append, deviceActions, deviceAction, enqueue_full (le_of_eq h.symm)]
  | cons act rest ih =>
    cases act with
    | interrupt code =>
      simp only [actionMessages] at h
      simp only [List.cons_append, deviceActions, deviceAction,
        enqueue_room (show s.queue.length < Config.queueCapacity by omega)]
      exact ih (by simp; omega)
    | setReg _ _ | setPc _ | setSp _ | setEx _ | setIa _ | setSkipping _ | memWrite _ _ => exact ih h

/-- All an HWI call can do: it takes one reply. -/
theorem deviceInterrupt_replies {index : Word} {s s' : State} (h : deviceInterrupt index s = .ok s') :
    s'.deviceReplies = s.deviceReplies.tail := by
  unfold deviceInterrupt at h
  split at h
  · cases h
  · exact (deviceActions_spec h).2

/-- All an HWI call can do to the rest of the state. -/
theorem deviceInterrupt_spec {index : Word} {s s' : State} (h : deviceInterrupt index s = .ok s') : DeviceEffect s s' := by
  unfold deviceInterrupt at h
  split at h
  · cases h
  · have := (deviceActions_spec h).1
    exact ⟨this.iq, this.fq, this.status, this.devices, this.schedule, this.stopRequests, this.queue, this.capacity, this.wf⟩

/-- A meaning answers a next state exactly when its operations do. -/
theorem outcome_next {r : Except Fault State} {t : State} : outcome r = .next t ↔ r = .ok t := by
  cases r <;> simp [outcome]

end Sys2Proof.Machine
end

