-- ==== Sys2Proof/Laws/PerInstr.lean ====
section
/-! SUPPORT. A family of statements, one per instruction: the length of an encoding is known from its first Word alone
(30_encoding.md R83). -/

namespace Sys2Proof.Laws.EncodedLength

/-- The encoding of a well-formed instruction is its first Word and as many next words as that Word says. -/
def Statement (i : Instr) : Prop :=
  i.wf = true → (encode i).length = 1 + nextWordCount ((encode i).headD 0)

theorem basic {o : Nat} {b a : Operand} (ho : o < 32) (h0 : o ≠ 0) (hb : b.legalAsB = true) :
    (encodeBasic o b a).length = 1 + nextWordCount ((encodeBasic o b a).headD 0) := by
  obtain ⟨h1, h2, h3⟩ := fields_of_word a.code_lt (Operand.code_lt_of_legalAsB hb) ho
  simp only [encodeBasic, List.headD_cons, nextWordCount, h1, h2, h3, if_neg h0, Operand.codeTakesWord_code,
    List.length_cons, List.length_append]
  omega

theorem special {n : Nat} {a : Operand} (hn : n < 32) :
    (encodeSpecial n a).length = 1 + nextWordCount ((encodeSpecial n a).headD 0) := by
  obtain ⟨h1, _, h3⟩ := fields_of_word a.code_lt hn (show 0 < 32 by decide)
  simp only [Nat.add_zero] at h1 h3
  simp only [encodeSpecial, List.headD_cons, nextWordCount, h1, h3, if_true, Operand.codeTakesWord_code, List.length_cons]
  omega

theorem set (b a : Operand) : Statement (.set b a) := fun h => basic (by decide) (by decide) h
theorem add (b a : Operand) : Statement (.add b a) := fun h => basic (by decide) (by decide) h
theorem sub (b a : Operand) : Statement (.sub b a) := fun h => basic (by decide) (by decide) h
theorem mul (b a : Operand) : Statement (.mul b a) := fun h => basic (by decide) (by decide) h
theorem mli (b a : Operand) : Statement (.mli b a) := fun h => basic (by decide) (by decide) h
theorem div (b a : Operand) : Statement (.div b a) := fun h => basic (by decide) (by decide) h
theorem dvi (b a : Operand) : Statement (.dvi b a) := fun h => basic (by decide) (by decide) h
theorem mod (b a : Operand) : Statement (.mod b a) := fun h => basic (by decide) (by decide) h
theorem mdi (b a : Operand) : Statement (.mdi b a) := fun h => basic (by decide) (by decide) h
theorem and (b a : Operand) : Statement (.and b a) := fun h => basic (by decide) (by decide) h
theorem bor (b a : Operand) : Statement (.bor b a) := fun h => basic (by decide) (by decide) h
theorem xor (b a : Operand) : Statement (.xor b a) := fun h => basic (by decide) (by decide) h
theorem shr (b a : Operand) : Statement (.shr b a) := fun h => basic (by decide) (by decide) h
theorem asr (b a : Operand) : Statement (.asr b a) := fun h => basic (by decide) (by decide) h
theorem shl (b a : Operand) : Statement (.shl b a) := fun h => basic (by decide) (by decide) h
theorem ifb (b a : Operand) : Statement (.ifb b a) := fun h => basic (by decide) (by decide) h
theorem ifc (b a : Operand) : Statement (.ifc b a) := fun h => basic (by decide) (by decide) h
theorem ife (b a : Operand) : Statement (.ife b a) := fun h => basic (by decide) (by decide) h
theorem ifn (b a : Operand) : Statement (.ifn b a) := fun h => basic (by decide) (by decide) h
theorem ifg (b a : Operand) : Statement (.ifg b a) := fun h => basic (by decide) (by decide) h
theorem ifa (b a : Operand) : Statement (.ifa b a) := fun h => basic (by decide) (by decide) h
theorem ifl (b a : Operand) : Statement (.ifl b a) := fun h => basic (by decide) (by decide) h
theorem ifu (b a : Operand) : Statement (.ifu b a) := fun h => basic (by decide) (by decide) h
theorem adx (b a : Operand) : Statement (.adx b a) := fun h => basic (by decide) (by decide) h
theorem sbx (b a : Operand) : Statement (.sbx b a) := fun h => basic (by decide) (by decide) h
theorem sti (b a : Operand) : Statement (.sti b a) := fun h => basic (by decide) (by decide) h
theorem std (b a : Operand) : Statement (.std b a) := fun h => basic (by decide) (by decide) h
theorem jsr (a : Operand) : Statement (.jsr a) := fun _ => special (by decide)
theorem int (a : Operand) : Statement (.int a) := fun _ => special (by decide)
theorem iag (a : Operand) : Statement (.iag a) := fun _ => special (by decide)
theorem ias (a : Operand) : Statement (.ias a) := fun _ => special (by decide)
theorem rfi (a : Operand) : Statement (.rfi a) := fun _ => special (by decide)
theorem iaq (a : Operand) : Statement (.iaq a) := fun _ => special (by decide)
theorem hwn (a : Operand) : Statement (.hwn a) := fun _ => special (by decide)
theorem hwq (a : Operand) : Statement (.hwq a) := fun _ => special (by decide)
theorem hwi (a : Operand) : Statement (.hwi a) := fun _ => special (by decide)

end Sys2Proof.Laws.EncodedLength
end

