-- ==== Sys2Proof/Tests/Slice0.lean ====
section
/-! SUPPORT. Tests. Every expected value is the spec's: "2.4" and the like cite the section of 95_test_vectors.md, W1 to W9 its worked
examples of the source, V-I1 and the like its vectors, and a decoded word is put together by hand from the codes of 30_encoding.md
R85, R87 and R88. A theorem named witness_X shows states and operands that meet the hypotheses of Obligations.X, clause by clause. -/

namespace Sys2Proof.Tests

open Sys2Proof Sys2Proof.Machine

/-! ## Helpers -/

/-- An outcome of the model. -/
abbrev Out := Host.Outcome State Fault Refusal

/-- A view of the next state, if there is one. -/
def seen {α : Type} (f : State → α) : Out → Option α
  | .next s => some (f s)
  | .fault _ => none
  | .refused _ => none

/-- The fault, if it is one. -/
def faultOf : Out → Option Fault
  | .next _ => none
  | .fault f => some f
  | .refused _ => none

/-- Is there a next state? -/
def completes (o : Out) : Bool := (seen (fun _ => ()) o).isSome

theorem next_of_completes {o : Out} (h : completes o = true) : ∃ t, o = .next t := by
  cases o with
  | next t => exact ⟨t, rfl⟩
  | fault _ => exact absurd h Bool.false_ne_true
  | refused _ => exact absurd h Bool.false_ne_true

theorem next_of_seen {α : Type} {f : State → α} {v : α} {o : Out} (h : seen f o = some v) : ∃ t, o = .next t ∧ f t = v := by
  cases o with
  | next t => exact ⟨t, rfl, Option.some.inj h⟩
  | fault _ => cases h
  | refused _ => cases h

/-- The reset state with `b` in B, `a` in A and `e` in EX. -/
def ab (b a e : Word) : State := { State.reset with regs := { Regs.zero with a := a, b := b }, ex := e }

/-- The reset state with Words stored, each an address and a value. -/
def withWords (s : State) (l : List (Word × Word)) : State :=
  { s with mem := l.foldl (fun m w => m.setWord w.1 w.2) s.mem }

/-- The reset state with Words stored, `sp`, and `pc` 0x0010. -/
def stackState (sp : Word) (l : List (Word × Word)) : State :=
  withWords { State.reset with sp := sp, pc := 0x0010 } l

/-- One row of the tables of 2.4: `b`, `a` and EX before, `b` and EX after, for a basic operation on B and A. -/
def row (i : Instr) (r : Word × Word × Word × Word × Word) : Bool :=
  decide (seen (fun t => (t.regs.b, t.ex)) (exec i (ab r.1 r.2.1 r.2.2.1)) = some (r.2.2.2.1, r.2.2.2.2))

/-- One row of the table of 2.6: `b`, `a`, and whether the next instruction is skipped. -/
def condRow (i : Instr) (r : Word × Word × Bool) : Bool :=
  decide (seen (fun t => (t.skipping, t.regs.a, t.regs.b)) (exec i (ab r.1 r.2.1 0)) = some (r.2.2, r.2.1, r.1))

/-- Device 0 of W7. -/
def device0 : Device := { id := 0x12345678, manufacturer := 0x9abcdef0, version := 0x0102 }

/-- A queue of `n` messages. -/
def fullQueue (n : Nat) : List Word := List.replicate n 0x0005

/-! ## Well-formed instructions (30_encoding.md R85) -/

theorem test_wf_refuses_inlined_b : (Instr.set (.short 3) (.reg .a)).wf = false := by decide
theorem test_wf_refuses_inlined_b_conditional : (Instr.ifu (.short 0) (.short 0)).wf = false := by decide
theorem test_wf_accepts_inlined_a : (Instr.set (.reg .a) (.short 31)).wf = true := by decide
theorem test_wf_accepts_literal_b : (Instr.add (.lit 5) (.short 0)).wf = true := by decide
theorem test_wf_accepts_special : (Instr.hwi (.short 3)).wf = true := by decide

/-! ## Decoding: one word for every instruction, written from 30_encoding.md R85, R87, R88 -/

/-- The decoder reads exactly `i` off `ws`, and the encoder writes `ws`. -/
def reads (ws : List Word) (i : Instr) : Bool := decide (decode ws = .ok (i, []) ∧ encode i = ws)

/-- 2.1. -/
theorem test_decode_set : reads [0x7c01, 0x0030] (.set (.reg .a) (.lit 0x0030)) = true := by decide
/-- 2.1. -/
theorem test_decode_add : reads [0x7a22, 0x2000, 0x0010] (.add (.indOff .b 0x0010) (.abs 0x2000)) = true := by decide
/-- 2.1. -/
theorem test_decode_sub : reads [0x8b63] (.sub .sp (.short 2)) = true := by decide
/-- 2.4. -/
theorem test_decode_mul : reads [0x93a4] (.mul .ex (.short 4)) = true := by decide
/-- W2. -/
theorem test_decode_mli : reads [0x0025] (.mli (.reg .b) (.reg .a)) = true := by decide
/-- 2.4. -/
theorem test_decode_div : reads [0x0006] (.div (.reg .a) (.reg .a)) = true := by decide
/-- W2. -/
theorem test_decode_dvi : reads [0x8c27] (.dvi (.reg .b) (.short 3)) = true := by decide
/-- 2.4. -/
theorem test_decode_mod : reads [0x93a8] (.mod .ex (.short 4)) = true := by decide
/-- W2. -/
theorem test_decode_mdi : reads [0x7c29, 0xfff1] (.mdi (.reg .b) (.lit 0xfff1)) = true := by decide
/-- R85, R87. -/
theorem test_decode_and : reads [0b001011_00010_01010] (.and (.reg .c) (.ind .x)) = true := by decide
/-- R85, R87. -/
theorem test_decode_bor : reads [0b011010_10111_01011, 0x0002, 0x1234] (.bor (.indOff .j 0x1234) (.pick 0x0002)) = true := by decide
/-- 2.4. -/
theorem test_decode_xor : reads [0x000c] (.xor (.reg .a) (.reg .a)) = true := by decide
/-- R85, R87. -/
theorem test_decode_shr : reads [0b000101_00100_01101] (.shr (.reg .y) (.reg .z)) = true := by decide
/-- R85, R87. -/
theorem test_decode_asr : reads [0b111111_11110_01110, 0x8000] (.asr (.abs 0x8000) (.short 31)) = true := by decide
/-- R85, R87. -/
theorem test_decode_shl : reads [0b011101_01110_01111] (.shl (.ind .i) .ex) = true := by decide
/-- R85, R87. -/
theorem test_decode_ifb : reads [0b011100_00011_10000] (.ifb (.reg .x) .pc) = true := by decide
/-- R85, R87. -/
theorem test_decode_ifc : reads [0b000111_11001_10001] (.ifc .peek (.reg .j)) = true := by decide
/-- W4. -/
theorem test_decode_ife : reads [0x8812] (.ife (.reg .a) (.short 2)) = true := by decide
/-- P5. -/
theorem test_decode_ifn : reads [0x7cd3, 0x0033] (.ifn (.reg .i) (.lit 0x0033)) = true := by decide
/-- 2.1. -/
theorem test_decode_ifg : reads [0x7f54, 0x8000, 0x0003] (.ifg (.pick 0x0003) (.lit 0x8000)) = true := by decide
/-- R85, R87. -/
theorem test_decode_ifa : reads [0b001101_00001_10101] (.ifa (.reg .b) (.ind .z)) = true := by decide
/-- R85, R87. -/
theorem test_decode_ifl : reads [0b011000_11000_10110] (.ifl .stack .stack) = true := by decide
/-- R85, R87. -/
theorem test_decode_ifu : reads [0b010000_11111_10111, 0xffff, 0x0001] (.ifu (.lit 0x0001) (.indOff .a 0xffff)) = true := by decide
/-- P6. -/
theorem test_decode_adx : reads [0x849a] (.adx (.reg .y) (.short 1)) = true := by decide
/-- P6. -/
theorem test_decode_sbx : reads [0x849b] (.sbx (.reg .y) (.short 1)) = true := by decide
/-- 2.5. -/
theorem test_decode_sti : reads [0x3dde] (.sti (.ind .i) (.ind .j)) = true := by decide
/-- 2.1. -/
theorem test_decode_std : reads [0x39ff] (.std (.ind .j) (.ind .i)) = true := by decide
/-- 2.1. -/
theorem test_decode_jsr : reads [0x7c20, 0x1000] (.jsr (.lit 0x1000)) = true := by decide
/-- W5. -/
theorem test_decode_int : reads [0x7d00, 0x002a] (.int (.lit 0x002a)) = true := by decide
/-- 2.1. -/
theorem test_decode_iag : reads [0x0120] (.iag (.reg .a)) = true := by decide
/-- 2.1. -/
theorem test_decode_ias : reads [0x7940, 0x0040] (.ias (.abs 0x0040)) = true := by decide
/-- 2.1. -/
theorem test_decode_rfi : reads [0x4160, 0x0001] (.rfi (.indOff .a 0x0001)) = true := by decide
/-- 2.1. -/
theorem test_decode_iaq : reads [0x8580] (.iaq (.short 1)) = true := by decide
/-- 2.1. -/
theorem test_decode_hwn : reads [0x1e00] (.hwn (.reg .j)) = true := by decide
/-- 2.1. -/
theorem test_decode_hwq : reads [0x0620] (.hwq (.reg .b)) = true := by decide
/-- 2.1. -/
theorem test_decode_hwi : reads [0x8e40] (.hwi (.short 3)) = true := by decide

/-- 2.1: the unsupported words, every one rejected, and 0x0020, which is JSR A. -/
theorem test_decode_rejects :
    ([0x0000, 0x0018, 0x0019, 0x001c, 0x001d, 0x0040, 0x00e0, 0x01a0, 0x0260, 0x03e0].all fun w : Word =>
      spellsNoInstruction w && !(decode [w]).isOk) = true ∧ reads [0x0020] (.jsr (.reg .a)) = true := by decide

/-- An instruction short of its next word is no instruction of the list. -/
theorem test_decode_truncated : decode [0x7c01] = .error .truncated := by decide

/-- W8 through the table's numbering: the second Word's bits count on from bit 16. -/
theorem test_decode_table_word : decodeTableWord 32 0x00307c01 = some (.set (.reg .a) (.lit 0x0030)) := by decide

/-! ## Arithmetic, logic and shifts: all rows of 2.4, on B and A in a quiet state -/

theorem witness_AddWritesSumAndCarry :
    (ab 0x0001 0x0002 0).quiet ∧ ([
      (0x0001, 0x0002, 0x0000, 0x0003, 0x0000), (0xffff, 0x0001, 0x0000, 0x0000, 0x0001),
      (0xffff, 0xffff, 0x0000, 0xfffe, 0x0001), (0x7fff, 0x0001, 0x0000, 0x8000, 0x0000),
      (0x0000, 0x0000, 0x1234, 0x0000, 0x0000)].all
      (row (.add (.reg .b) (.reg .a)))) = true := ⟨rfl, by decide⟩

theorem witness_SubWritesDifferenceAndBorrow :
    (ab 0x0005 0x0003 0).quiet ∧ ([
      (0x0005, 0x0003, 0x0000, 0x0002, 0x0000), (0x0000, 0x0001, 0x0000, 0xffff, 0xffff),
      (0x0001, 0xffff, 0x0000, 0x0002, 0xffff), (0x8000, 0x0001, 0x0000, 0x7fff, 0x0000),
      (0x1234, 0x1234, 0xffff, 0x0000, 0x0000)].all
      (row (.sub (.reg .b) (.reg .a)))) = true := ⟨rfl, by decide⟩

theorem witness_MulWritesProductHalves :
    (ab 0x0003 0x0004 0).quiet ∧ ([
      (0x0003, 0x0004, 0x0000, 0x000c, 0x0000), (0xffff, 0xffff, 0x0000, 0x0001, 0xfffe),
      (0x1000, 0x0010, 0x0000, 0x0000, 0x0001), (0x0000, 0xffff, 0x1111, 0x0000, 0x0000)].all
      (row (.mul (.reg .b) (.reg .a)))) = true := ⟨rfl, by decide⟩

theorem witness_MliWritesSignedProductHalves :
    (ab 0x0007 0xfffb 0).quiet ∧ ([
      (0x0007, 0xfffb, 0x0000, 0xffdd, 0xffff), (0xffff, 0xffff, 0x0000, 0x0001, 0x0000),
      (0x8000, 0x8000, 0x0000, 0x0000, 0x4000), (0x8000, 0xffff, 0x0000, 0x8000, 0x0000),
      (0x7fff, 0x7fff, 0x0000, 0x0001, 0x3fff)].all
      (row (.mli (.reg .b) (.reg .a)))) = true := ⟨rfl, by decide⟩

theorem witness_DivWritesQuotientAndFraction :
    (ab 0x0007 0x0002 0).quiet ∧ ([
      (0x0007, 0x0002, 0x0000, 0x0003, 0x8000), (0x0001, 0x0003, 0x0000, 0x0000, 0x5555),
      (0xffff, 0xffff, 0x0000, 0x0001, 0x0000), (0xffff, 0x0001, 0x0000, 0xffff, 0x0000),
      (0x0005, 0x0000, 0x1234, 0x0000, 0x0000), (0x0000, 0x0005, 0x1234, 0x0000, 0x0000)].all
      (row (.div (.reg .b) (.reg .a)))) = true := ⟨rfl, by decide⟩

theorem witness_DviWritesSignedQuotientAndFraction :
    (ab 0xffdd 0x0002 0).quiet ∧ ([
      (0xffdd, 0x0002, 0x0000, 0xffef, 0x8000), (0x0007, 0xfffe, 0x0000, 0xfffd, 0x8000),
      (0x8000, 0xffff, 0x0000, 0x8000, 0x0000), (0xfff9, 0xfffe, 0x0000, 0x0003, 0x8000),
      (0x0005, 0x0000, 0x1234, 0x0000, 0x0000)].all
      (row (.dvi (.reg .b) (.reg .a)))) = true := ⟨rfl, by decide⟩

theorem witness_ModWritesUnsignedRemainder :
    (ab 0x0007 0x0003 0).quiet ∧ ([
      (0x0007, 0x0003, 0x1234, 0x0001, 0x1234), (0xffff, 0x0010, 0x0000, 0x000f, 0x0000),
      (0x0009, 0x0000, 0x1234, 0x0000, 0x1234)].all
      (row (.mod (.reg .b) (.reg .a)))) = true := ⟨rfl, by decide⟩

theorem witness_MdiWritesSignedRemainder :
    (ab 0xffef 0x0004 0).quiet ∧ ([
      (0xffef, 0x0004, 0x0000, 0xffff, 0x0000), (0xffef, 0xfff1, 0x0000, 0xfffe, 0x0000),
      (0x0007, 0xfffe, 0x0000, 0x0001, 0x0000), (0x8000, 0xffff, 0x0000, 0x0000, 0x0000),
      (0x0009, 0x0000, 0x1234, 0x0000, 0x1234)].all
      (row (.mdi (.reg .b) (.reg .a)))) = true := ⟨rfl, by decide⟩

theorem witness_ShrShiftsOutIntoEx :
    (ab 0x8001 0x0001 0).quiet ∧ ([
      (0x8001, 0x0001, 0x0000, 0x4000, 0x8000), (0x1234, 0x0000, 0x5555, 0x1234, 0x0000),
      (0xffff, 0x0010, 0x0000, 0x0000, 0xffff), (0xffff, 0x0014, 0x0000, 0x0000, 0x0fff),
      (0xffff, 0x0020, 0x0000, 0x0000, 0x0000)].all
      (row (.shr (.reg .b) (.reg .a)))) = true := ⟨rfl, by decide⟩

theorem witness_AsrShiftsSignInAndOutIntoEx :
    (ab 0x8001 0x0001 0).quiet ∧ ([
      (0x8001, 0x0001, 0x0000, 0xc000, 0x8000), (0x7fff, 0x0004, 0x0000, 0x07ff, 0xf000),
      (0xffff, 0x0010, 0x0000, 0xffff, 0xffff), (0x8000, 0x0028, 0x0000, 0xffff, 0xffff),
      (0x7fff, 0x0028, 0x0000, 0x0000, 0x0000)].all
      (row (.asr (.reg .b) (.reg .a)))) = true := ⟨rfl, by decide⟩

theorem witness_ShlShiftsOutIntoEx :
    (ab 0x8001 0x0001 0).quiet ∧ ([
      (0x8001, 0x0001, 0x0000, 0x0002, 0x0001), (0x1234, 0x0004, 0x0000, 0x2340, 0x0001),
      (0xffff, 0x0010, 0x0000, 0x0000, 0xffff), (0x0001, 0x001f, 0x0000, 0x0000, 0x8000),
      (0x0001, 0x0020, 0x0000, 0x0000, 0x0000), (0x1234, 0x0000, 0x5555, 0x1234, 0x0000)].all
      (row (.shl (.reg .b) (.reg .a)))) = true := ⟨rfl, by decide⟩

theorem witness_AdxAddsExAndCarries :
    (ab 0xffff 0x0000 0).quiet ∧ ([
      (0xffff, 0x0000, 0x0001, 0x0000, 0x0001), (0xffff, 0xffff, 0xffff, 0xfffd, 0x0001),
      (0x0001, 0x0002, 0x0003, 0x0006, 0x0000), (0xffff, 0x0001, 0x0000, 0x0000, 0x0001)].all
      (row (.adx (.reg .b) (.reg .a)))) = true := ⟨rfl, by decide⟩

theorem witness_SbxSubtractsAndAddsEx :
    (ab 0x0000 0x0001 0).quiet ∧ ([
      (0x0000, 0x0001, 0x0000, 0xffff, 0xffff), (0x0000, 0x0001, 0x0001, 0x0000, 0x0000),
      (0x0005, 0x0003, 0xffff, 0x0001, 0x0001), (0x0000, 0xffff, 0xffff, 0x0000, 0x0000),
      (0x0002, 0x0000, 0xffff, 0x0001, 0x0001), (0x0003, 0x0005, 0x0000, 0xfffe, 0xffff),
      (0x0007, 0x0007, 0x1234, 0x1234, 0x0000)].all
      (row (.sbx (.reg .b) (.reg .a)))) = true := ⟨rfl, by decide⟩

theorem witness_LogicWritesBitwiseResult :
    (ab 0xf0f0 0xff00 0x1234).quiet ∧ row (.and (.reg .b) (.reg .a)) (0xf0f0, 0xff00, 0x1234, 0xf000, 0x1234) = true ∧
    row (.bor (.reg .b) (.reg .a)) (0xf0f0, 0xff00, 0x1234, 0xfff0, 0x1234) = true ∧ row (.xor (.reg .b) (.reg .a)) (0xf0f0, 0xff00, 0x1234, 0x0ff0, 0x1234) = true :=
  ⟨rfl, by decide, by decide, by decide⟩

/-- 2.4: the source is the destination, for SBX with EX. -/
theorem test_sbx_same_register :
    seen (fun t => (t.regs.a, t.ex)) (exec (.sbx (.reg .a) (.reg .a)) (ab 0 0x0003 0x0001)) = some (0x0001, 0x0000) := by decide

/-- 2.4: EX as destination keeps the carry, not the sum. -/
theorem test_add_to_ex : seen State.ex (exec (.add .ex (.short 2)) (ab 0 0 0xffff)) = some 0x0001 := by decide

/-- 2.4: EX as destination of MOD keeps the remainder. -/
theorem test_mod_to_ex : seen State.ex (exec (.mod .ex (.short 4)) (ab 0 0 0x0002)) = some 0x0002 := by decide

/-- 2.4: a literal destination discards the sum and keeps the carry. -/
theorem test_add_to_literal :
    seen (fun t => (t.regs, t.ex, t.mem)) (exec (.add (.lit 5) (.short 0)) State.reset) = some (Regs.zero, 0x0001, []) := by
  decide

/-! ## Conditionals: all rows of 2.6 -/

theorem witness_ConditionalsSetSkippingOnFailure :
    (ab 0x0f0f 0xf0f0 0).quiet ∧
    ([(0x0f0f, 0xf0f0, true), (0x0101, 0x0001, false), (0x0000, 0xffff, true)].all (condRow (.ifb (.reg .b) (.reg .a)))) = true ∧
    ([(0x0f0f, 0xf0f0, false), (0x0003, 0x0001, true)].all (condRow (.ifc (.reg .b) (.reg .a)))) = true ∧
    ([(0xffff, 0xffff, false), (0x0000, 0x0001, true)].all (condRow (.ife (.reg .b) (.reg .a)))) = true ∧
    ([(0x0000, 0x0000, true), (0x0001, 0x0000, false)].all (condRow (.ifn (.reg .b) (.reg .a)))) = true ∧
    ([(0xffff, 0x0001, false), (0x7fff, 0x8000, true), (0x0005, 0x0005, true)].all (condRow (.ifg (.reg .b) (.reg .a)))) = true ∧
    ([(0xffff, 0x0001, true), (0x7fff, 0x8000, false), (0x0005, 0x0005, true)].all (condRow (.ifa (.reg .b) (.reg .a)))) = true ∧
    ([(0x0001, 0xffff, false), (0x8000, 0x7fff, true), (0x0005, 0x0005, true)].all (condRow (.ifl (.reg .b) (.reg .a)))) = true ∧
    ([(0x0001, 0xffff, true), (0x8000, 0x7fff, false), (0x0005, 0x0005, true)].all (condRow (.ifu (.reg .b) (.reg .a)))) = true :=
  ⟨rfl, by decide⟩

/-- 2.6: a POP operand of an executed conditional moves `sp`. -/
theorem test_ife_pops :
    seen State.sp (exec (.ife (.reg .a) .stack) (stackState 0xfffe [(0xfffe, 0x0001)])) = some 0xffff := by decide

/-! ## Moves and operands (2.2, 2.3, 2.5) -/

theorem witness_SetWritesTheSource :
    (ab 0x0003 0 0x0007).quiet ∧
    seen (fun t => (t.regs.a, t.ex)) (exec (.set (.reg .a) (.reg .b)) (ab 0x0003 0 0x0007)) = some (0x0003, 0x0007) :=
  ⟨rfl, by decide⟩

/-- 2.2: an indexed address wraps. -/
theorem test_set_indexed_wraps :
    seen (fun t => t.mem.word 0x0010) (exec (.set (.indOff .a 0x0020) (.short 8)) (ab 0 0xfff0 0)) = some 0x0007 := by decide

/-- 2.2: PUSH and POP of one instruction share the moved `sp`. -/
theorem test_add_push_pop :
    seen (fun t => (t.sp, t.mem.word 0xfffe)) (exec (.add .stack .stack) (stackState 0xfffe [(0xfffe, 3), (0xffff, 4)])) =
      some (0xfffe, 0x0006) := by decide

/-- 2.2: `[SP]` as `b` follows the POP of `a`, and `[SP + 0]` was fixed before it. -/
theorem test_peek_and_pick_after_pop :
    seen (fun t => (t.sp, t.mem.word 0xffff)) (exec (.set .peek .stack) (stackState 0xfffe [(0xfffe, 3), (0xffff, 4)])) =
      some (0xffff, 0x0003) ∧
    seen (fun t => (t.sp, t.mem.word 0xfffe)) (exec (.set (.pick 0) .stack) (stackState 0xfffe [(0xfffe, 3), (0xffff, 4)])) =
      some (0xffff, 0x0003) := by decide

/-- I 0x0010, J 0x0020, and a Word at J (2.5). -/
def blockState : State :=
  withWords { State.reset with regs := { Regs.zero with i := 0x0010, j := 0x0020 } } [(0x0020, 0xabcd)]

theorem witness_BlockMovesStepIAndJ :
    blockState.quiet ∧
    seen (fun t => (t.mem.word 0x0010, t.regs.i, t.regs.j)) (exec (.sti (.ind .i) (.ind .j)) blockState) =
      some (0xabcd, 0x0011, 0x0021) ∧
    seen (fun t => (t.mem.word 0x0010, t.regs.i, t.regs.j)) (exec (.std (.ind .i) (.ind .j)) blockState) =
      some (0xabcd, 0x000f, 0x001f) := ⟨rfl, by decide⟩

/-- 2.5: I and J move after the write of I, and wrap. -/
theorem test_block_moves_order_and_wrap :
    seen (fun t => (t.regs.i, t.regs.j)) (exec (.sti (.reg .i) (.short 6)) State.reset) = some (0x0006, 0x0001) ∧
    seen (fun t => (t.regs.a, t.regs.i, t.regs.j)) (exec (.std (.reg .a) (.short 6)) State.reset) =
      some (0x0005, 0xffff, 0xffff) := by decide

/-- The last register, both ends of the inlined literals (30_encoding.md R92), and operands that are not the stack's. -/
theorem witness_OperandsBindAtTheirEffectiveAddress :
    [Reg.a, .b, .c, .x, .y, .z, .i, .j][7]? = some .j ∧ operandOfCode 0x0f [] = .ok (.ind .j, []) ∧
    0x20 ≤ 0x20 ∧ 0x3f ≤ 0x3f ∧ operandOfCode 0x20 [] = .ok (.short 0, []) ∧ aValue (.short 0) State.reset = 0xffff ∧
    operandOfCode 0x3f [] = .ok (.short 31, []) ∧ aValue (.short 31) State.reset = 0x001e ∧
    Operand.pick 0 ≠ .stack ∧ Operand.sp ≠ .stack ∧ bSide .stack .stack State.reset = (.mem 0x0000, { State.reset with sp := 0 }) := by
  decide

/-! ## Special operations (2.8, 2.9) -/

/-- 2.8: JSR POP pops its target and then pushes the return address. -/
theorem witness_JsrPushesReturnAddress :
    (stackState 0xfffe [(0xfffe, 0x0200)]).quiet ∧
    seen (fun t => (t.sp, t.pc, t.mem.word 0xfffe)) (exec (.jsr .stack) { stackState 0xfffe [(0xfffe, 0x0200)] with pc := 0x0011 }) =
      some (0xfffe, 0x0200, 0x0011) := ⟨rfl, by decide⟩

/-- `ia` 0x0100, A 3, `sp` 0xfffe, `pc` 0x0105, with the flags and the queue given (V-I5 to V-I8). -/
def intState (fq iq : Bool) (queue : List Word) : State :=
  { ab 0 0x0003 0 with ia := 0x0100, sp := 0xfffe, pc := 0x0105, fq := fq, iq := iq, queue := queue }

/-- V-I6: a nested delivery. -/
theorem test_int_delivers :
    seen (fun t => (t.sp, t.pc, t.regs.a, t.iq, t.mem.word 0xfffd, t.mem.word 0xfffc)) (exec (.int (.short 6)) (intState false true [])) =
      some (0xfffc, 0x0100, 0x0005, true, 0x0105, 0x0003) := by decide

/-- V-I5, V-I9, V-F3, V-I7, V-I8: both flags, with room for one message and with none; and each flag alone. -/
theorem witness_IntEnqueuesOrDelivers :
    (intState true true (fullQueue 255)).quiet ∧ (fullQueue 255).length < 256 ∧ (fullQueue 256).length = 256 ∧
    seen (fun t => (t.queue, t.sp)) (exec (.int (.short 6)) (intState true true [])) = some ([0x0005], 0xfffe) ∧
    seen State.queue (exec (.int (.short 6)) (intState true true (fullQueue 255))) = some (fullQueue 256) ∧
    faultOf (exec (.int (.short 6)) (intState true true (fullQueue 256))) = some (.deviceOverload 0x0005) ∧
    seen (fun t => (t.pc, t.iq)) (exec (.int (.short 6)) (intState true false [])) = some (0x0100, true) ∧
    seen id (exec (.int (.short 6)) { intState false true [] with ia := 0 }) = some { intState false true [] with ia := 0 } :=
  ⟨rfl, by decide +kernel⟩

theorem witness_IagAndIasMoveTheInterruptAddress :
    (intState false false []).quiet ∧
    seen (fun t => t.regs.a) (exec (.iag (.reg .a)) (intState false false [])) = some 0x0100 ∧
    seen State.ia (exec (.ias (.short 9)) (intState false false [])) = some 0x0008 := ⟨rfl, by decide⟩

/-- IAG and HWN through a literal operand write nothing (40_operands.md R121). -/
theorem test_iag_hwn_to_literal :
    seen id (exec (.iag (.lit 5)) (intState false false [])) = some (intState false false []) ∧
    seen id (exec (.hwn (.short 3)) (intState false false [])) = some (intState false false []) := by decide

/-- 2.8: RFI, its operand a literal and a POP that is never accessed. -/
theorem witness_RfiPopsAThenPc :
    (stackState 0xfffe [(0xfffe, 7), (0xffff, 4)]).quiet ∧
    seen (fun t => (t.regs.a, t.pc, t.sp, t.iq, t.fq))
      (exec (.rfi (.short 1)) { stackState 0xfffe [(0xfffe, 7), (0xffff, 4)] with iq := true, fq := true }) =
      some (0x0007, 0x0004, 0x0000, false, true) ∧
    seen (fun t => (t.regs.a, t.pc, t.sp)) (exec (.rfi .stack) (stackState 0xfffd [(0xfffd, 9), (0xfffe, 7), (0xffff, 4)])) =
      some (0x0009, 0x0007, 0xffff) := ⟨rfl, by decide⟩

theorem witness_IaqSetsForceQueuing :
    (intState true false []).quiet ∧
    seen State.fq (exec (.iaq (.short 2)) (intState false false [])) = some true ∧
    seen State.fq (exec (.iaq (.short 1)) (intState true false [])) = some false := ⟨rfl, by decide⟩

/-! ## Hardware (2.8, W7, P7) -/

/-- One device, replies to come, the index `a` in A and 5 in B. -/
def hwState (a : Word) (replies : List DeviceReply) : State :=
  { ab 0x0005 a 0 with devices := [device0], deviceReplies := replies.foldr .item .ended }

/-- No device, three devices, and 65535 of them. -/
theorem witness_HwnWritesDeviceCount :
    State.reset.quiet ∧ (List.replicate 65535 device0).length ≤ 65535 ∧
    seen (fun t => t.regs.a) (exec (.hwn (.reg .a)) { State.reset with devices := [device0, device0, device0] }) = some 0x0003 ∧
    seen (fun t => t.regs.a) (exec (.hwn (.reg .a)) (ab 0 7 0)) = some 0x0000 :=
  ⟨rfl, by rw [List.length_replicate], by decide⟩

/-- W7, the index being the old A; and the first index with no device. -/
theorem witness_HwqSplitsIdentity :
    (hwState 0 []).quiet ∧ (hwState 0 []).devices[(0 : Nat)]? = some device0 ∧ (hwState 1 []).devices.length ≤ (1 : Word).toNat ∧
    seen State.regs (exec (.hwq (.reg .a)) (hwState 0 [])) =
      some { Regs.zero with a := 0x5678, b := 0x1234, c := 0x0102, x := 0xdef0, y := 0x9abc } ∧
    faultOf (exec (.hwq (.reg .a)) (hwState 1 [])) = some (.noSuchDevice 0x0001) :=
  ⟨rfl, rfl, by decide⟩

/-- P7's handler, one that returns at once, none, one that enqueues the 256th message, one that enqueues the 257th, one that never
returns, and no such device. -/
theorem witness_HwiRunsTheHandlerOrFaults :
    (hwState 0 [.returns [.interrupt 0x0005]]).quiet ∧ (0 : Word).toNat < (hwState 0 []).devices.length ∧
    (hwState 1 []).devices.length ≤ (1 : Word).toNat ∧
    (fullQueue 255).length + actionMessages [.setReg .z 1, .interrupt 0x0005] ≤ 256 ∧
    (fullQueue 255).length + actionMessages [.interrupt 0x0005] = 256 ∧
    seen State.queue (exec (.hwi (.reg .a)) (hwState 0 [.returns [.interrupt 0x0005]])) = some [0x0005] ∧
    seen id (exec (.hwi (.reg .a)) (hwState 0 [.returns []])) = some (hwState 0 []) ∧
    seen id (exec (.hwi (.reg .a)) (hwState 0 [])) = some (hwState 0 []) ∧
    seen (fun t => (t.queue, t.regs.z)) (exec (.hwi (.reg .a))
      { hwState 0 [.returns [.setReg .z 1, .interrupt 0x0005]] with queue := fullQueue 255 }) = some (fullQueue 256, 0x0001) ∧
    faultOf (exec (.hwi (.reg .a)) { hwState 0 [.returns [.interrupt 0x0005, .interrupt 0x0006]] with queue := fullQueue 255 }) =
      some (.deviceOverload 0x0006) ∧
    faultOf (exec (.hwi (.reg .a)) (hwState 0 [.neverReturns])) = some (.stuckInDevice 0x0000) ∧
    faultOf (exec (.hwi (.reg .a)) (hwState 0xffff [])) = some (.noSuchDevice 0xffff) :=
  ⟨rfl, by decide +kernel⟩

theorem witness_DeviceMayLeaveAnyProcessorState :
    (hwState 0 []).quiet ∧ (aValue (.reg .a) (hwState 0 [])).toNat < (hwState 0 []).devices.length ∧
    (fullQueue 254).length + [(0x0001 : Word), 0x0002].length ≤ 256 := ⟨rfl, by decide +kernel⟩

/-! ## Start of a run and load (W8, W9, 70_reset_and_hazards.md R290 to R293) -/

/-- A view of the state a start answers. -/
def startSeen {α : Type} (f : State → α) : Except Fault State → Option α
  | .ok s => some (f s)
  | .error _ => none

theorem witness_StartStateHoldsImageAndMemInit :
    1 < 65536 ∧ [(0x7c01 : Word), 0x0030][1]? = some 0x0030 ∧ [(0x7c01 : Word), 0x0030].length ≤ (2 : Word).toNat ∧
    startSeen (fun t => t.mem.word 1) (State.start [device0] [0x7c01, 0x0030]) = some 0x0030 := by decide

/-- W9: the last Word that fits, and an address below the offset and one past the words. -/
theorem witness_BulkSetTruncatesAtMemoryEnd :
    [(1 : Word), 2, 3, 4][1]? = some 2 ∧ 0xfffe + 1 ≤ 65535 ∧ (0xfffd : Word).toNat < 0xfffe ∧ 0x0010 + 3 ≤ (0x0013 : Word).toNat ∧
    Memory.bulkSet 0xfffe [1, 2, 3, 4] [] = [(0x1fffc, 0), (0x1fffd, 1), (0x1fffe, 0), (0x1ffff, 2)] := by decide

/-- Device threads that write a Word under the image before the load and one after it, and raise a message each time. -/
def earlyAgents : Agents := { beforeLoad := [.memWrite 0 7, .memWrite 3 8, .interrupt 1], afterLoad := [.interrupt 2, .memWrite 1 9] }

theorem witness_InvariantHoldsAtReset :
    (List.replicate 65535 device0).length ≤ 65535 ∧ (∃ s, State.start [device0] [0x7c01, 0x0030] earlyAgents = .ok s) ∧
    (List.replicate 256 (0 : Word)).length ≤ 256 ∧
    (1 < 65536 ∧ [(0x7c01 : Word), 0x0030, 0x0031][1]? = some 0x0030 ∧ ∀ v, BusEvent.memWrite 1 v ∉ [BusEvent.interrupt 2, .memWrite 2 9]) ∧
    ([(0x7c01 : Word), 0x0030].length ≤ (5 : Word).toNat ∧
      ∀ v, BusEvent.memWrite 5 v ∉ earlyAgents.beforeLoad ++ earlyAgents.afterLoad) ∧
    (earlyAgents.afterLoad = [.interrupt 2] ++ .memWrite 1 9 :: [] ∧ ∀ w, BusEvent.memWrite 1 w ∉ []) ∧
    (earlyAgents.beforeLoad = [.memWrite 0 7] ++ .memWrite 3 8 :: [.interrupt 1] ∧
      [(0x7c01 : Word), 0x0030].length ≤ (3 : Word).toNat ∧
      ∀ w, BusEvent.memWrite 3 w ∉ [.interrupt 1] ++ earlyAgents.afterLoad) :=
  ⟨by rw [List.length_replicate], ⟨_, rfl⟩, by rw [List.length_replicate],
    ⟨by decide, rfl, fun v => by simp⟩, ⟨by decide, fun v => by simp [earlyAgents]⟩,
    ⟨rfl, fun w => List.not_mem_nil⟩, ⟨rfl, by decide, fun w => by simp [earlyAgents]⟩⟩

/-- A start at which devices have acted (R295): the load overwrites the earlier write, and the messages are queued in order. -/
theorem test_start_after_device_acts :
    startSeen (fun t => (t.queue, t.mem.word 0, t.mem.word 1, t.mem.word 3)) (State.start [device0] [0x7c01, 0x0030] earlyAgents) =
      some ([1, 2], 0x7c01, 0x0009, 0x0008) := by decide

/-- W8: the bytes 7c 01 00 30 set A to 0x0030 in one cycle; in little-endian order they spell no instruction. -/
theorem test_w8_bytes :
    ((State.startBytes [] [0x7c, 0x01, 0x00, 0x30]).map (startSeen fun s => seen (fun t => (t.regs.a, t.pc)) (step s))) =
      some (some (some (0x0030, 0x0002))) ∧
    ((State.startBytes [] [0x7c, 0x01, 0x00, 0x30] .little).map (startSeen fun s => faultOf (step s))) =
      some (some (some (.unsupportedOperation 0x0000 0x017c))) ∧
    (State.startBytes [] [0x7c, 0x01, 0x00]).isNone = true := by decide

/-- The instruction placed where the step fetches it: at `pc`, and at `ia` when a message will be delivered. -/
theorem test_with_fetch_word :
    seen (fun t => t.regs.a) (step (State.reset.withFetchWord 32 0x00307c01)) = some 0x0030 ∧
    seen (fun t => (t.regs.b, t.pc)) (step ({ intState false false [0x0009] with skipping := true }.withFetchWord 16 0x0021)) =
      some (0x0009, 0x0101) := by decide

/-! ## Encoding -/

theorem witness_DecodeInvertsEncode :
    (Instr.ifu (.lit 0x0001) (.indOff .a 0xffff)).wf = true ∧ (Instr.hwi (.short 31)).wf = true := by decide

theorem witness_EncodeInvertsDecode :
    decode [0x7a22, 0x2000, 0x0010, 0x1234] = .ok (.add (.indOff .b 0x0010) (.abs 0x2000), [0x1234]) := by decide

/-- A rejected word and an accepted one, each with exactly as many next words as it takes. -/
theorem witness_OnlyUnsupportedOpcodesAreRejected :
    nextWordCount 0x0018 ≤ ([] : List Word).length ∧ (decode [0x0018]).isOk = false ∧
    nextWordCount 0x7a22 ≤ [(0x2000 : Word), 0x0010].length ∧ (decode [0x7a22, 0x2000, 0x0010]).isOk = true := by decide

/-! ## Cycle, skip and delivery (2.7, 2.9, 2.10) -/

/-- Running with an image at 0. -/
def programState (image : List Word) : State := { State.reset with mem := Memory.bulkSet 0 image [] }

/-- 2.7: a state that skips the two-word SET A, [0x1000]. -/
def skipState : State := { programState [0x7801, 0x1000, 0x8821] with skipping := true }

/-- V-I1: `ia` 0x0100, two messages, and SET B, A at 0x0100. -/
def deliveryState : State :=
  withWords { ab 0 0x0009 0 with ia := 0x0100, queue := [1, 2], pc := 0x0020 } [(0x0100, 0x0021)]

/-- 2.7: a skipped two-word SET, a skipped conditional, and a skipped word that spells no instruction. -/
theorem test_skip_chain :
    seen (fun t => (t.pc, t.skipping, t.regs.a)) (step skipState) = some (0x0002, false, 0x0000) ∧
    seen (fun t => (t.pc, t.skipping)) (step { programState [0x8412] with skipping := true }) = some (0x0001, true) ∧
    faultOf (step { programState [0x8812, 0x0018] with skipping := true, pc := 1 }) =
      some (.unsupportedOperation 0x0001 0x0018) := by decide

/-- V-I1: the step delivers, then runs the handler's first instruction. -/
theorem test_step_delivers :
    seen (fun t => (t.regs.a, t.regs.b, t.pc, t.sp, t.iq)) (step deliveryState) = some (0x0001, 0x0001, 0x0101, 0xfffe, true) ∧
    seen (fun t => (t.queue, t.mem.word 0xffff, t.mem.word 0xfffe)) (step deliveryState) = some ([2], 0x0020, 0x0009) := by decide

/-- V-I4: with `ia` 0 the message is dropped and the instruction at `pc` runs. -/
theorem test_step_drops :
    seen (fun t => (t.queue, t.sp, t.regs.a)) (step { programState [0x7c01, 0x0030] with queue := [1, 2] }) =
      some ([2], 0x0000, 0x0030) := by decide

/-- 10_state.md R45: a stopped core has no step, and a faulted one stays at its fault. -/
theorem test_no_cycle_after_the_end :
    completes (step { programState [0x7c01, 0x0030] with status := .stopped }) = false ∧
    faultOf (step { programState [0x7c01, 0x0030] with status := .faulted (.noSuchDevice 1) }) = some (.noSuchDevice 1) := by decide

theorem witness_EveryStepKeepsInvariant :
    deliveryState.inv ∧ (∃ t, step deliveryState = .next t) ∧
    { programState [0x7c01, 0x0030] with queue := fullQueue 256, iq := true }.inv ∧
    ∃ t, step { programState [0x7c01, 0x0030] with queue := fullQueue 256, iq := true } = .next t :=
  ⟨⟨by decide +kernel, by decide +kernel, by decide +kernel⟩, next_of_completes (by decide +kernel), ⟨by decide +kernel, by decide +kernel, by decide +kernel⟩,
    next_of_completes (by decide +kernel)⟩

/-- Delivering and executing, and skipping. -/
theorem witness_StepRunsTheDecodedInstruction :
    deliveryState.status = .running ∧ deliveryState.quiet ∧
    (∃ s1 s2 ws, interruptStep deliveryState = .ok s1 ∧ fetch s1 = .ok (ws, s2) ∧
      decode ws = .ok (.set (.reg .b) (.reg .a), []) ∧
      (decode (wordsFrom s1.mem s1.pc 1)) = .ok (.set (.reg .b) (.reg .a), [])) ∧
    skipState.status = .running ∧ skipState.quiet ∧ interruptStep skipState = .ok skipState ∧
    decode (wordsFrom skipState.mem skipState.pc 3) = .ok (.set (.reg .a) (.abs 0x1000), [0x8821]) :=
  ⟨rfl, rfl, ⟨_, _, _, rfl, rfl, by decide⟩, rfl, rfl, rfl, by decide⟩

theorem witness_SkippedInstructionOnlyAdvances :
    skipState.status = .running ∧ skipState.quiet ∧ skipState.skipping = true ∧
    decode (wordsFrom skipState.mem skipState.pc 3) = .ok (.set (.reg .a) (.abs 0x1000), [0x8821]) :=
  ⟨rfl, rfl, rfl, by decide⟩

/-- An unsupported word met executing, and one met skipping. -/
theorem witness_UnsupportedWordFaults :
    (programState [0x0018]).status = .running ∧ (programState [0x0018]).quiet ∧
    interruptStep (programState [0x0018]) = .ok (programState [0x0018]) ∧
    spellsNoInstruction ((programState [0x0018]).mem.word 0) = true ∧
    interruptStep { programState [0x03e0] with skipping := true } = .ok { programState [0x03e0] with skipping := true } ∧
    spellsNoInstruction ((programState [0x03e0]).mem.word 0) = true :=
  ⟨rfl, rfl, rfl, by decide, rfl, by decide⟩

theorem witness_InterruptStepTakesAtMostOneMessage :
    deliveryState.quiet ∧ skipState.skipping = true ∧ (intState false true []).iq = true ∧
    (State.reset.skipping = false ∧ State.reset.iq = false ∧ State.reset.queue = []) ∧
    (deliveryState.skipping = false ∧ deliveryState.iq = false ∧ deliveryState.queue = 1 :: [2]) :=
  ⟨rfl, rfl, rfl, ⟨rfl, rfl, rfl⟩, rfl, rfl, rfl⟩

theorem witness_DeliveryPushesPcThenA :
    State.reset.quiet ∧ State.reset.ia = 0 ∧ deliveryState.quiet ∧ deliveryState.ia ≠ 0 :=
  ⟨rfl, rfl, rfl, by decide⟩

/-- A device thread writes while the delivery pushes; and a dropped message. -/
theorem witness_DeliveryLeavesTheRestAlone :
    (∃ t, deliver 0x0007 { deliveryState with schedule := .item [] (.item [.memWrite 0x0200 1, .interrupt 3] .ended) } = .ok t) ∧
    ∃ t, deliver 0x0007 State.reset = .ok t := ⟨⟨_, rfl⟩, _, rfl⟩

theorem witness_ReturnUndoesDelivery : deliveryState.quiet ∧ deliveryState.ia ≠ 0 := ⟨rfl, by decide⟩

/-! ## Frames: each family's instruction completes with device threads still to act -/

/-- A device thread writes a Word and raises a message just before the core's first access. -/
def busyState : State :=
  { blockState with schedule := .item [.memWrite 0x0200 1, .interrupt 3] .ended, devices := [device0], queue := [0x0004] }

theorem witness_ExWritingOperationsFrame :
    Instr.sbx (.ind .i) (.ind .j) ∈ [Instr.add (.ind .i) (.ind .j), Instr.sbx (.ind .i) (.ind .j)] ∧
    ∃ t, exec (.sbx (.ind .i) (.ind .j)) busyState = .next t := ⟨by decide, next_of_completes (by decide)⟩

theorem witness_OtherWritingOperationsFrame :
    (∃ t, exec (.set .stack (.ind .j)) busyState = .next t) ∧ (∃ t, exec (.mdi .ex (.abs 0x0020)) busyState = .next t) ∧
    ∃ t, exec (.xor .sp .peek) busyState = .next t :=
  ⟨next_of_completes (by decide), next_of_completes (by decide), next_of_completes (by decide)⟩

theorem witness_BlockMovesFrame :
    (∃ t, exec (.sti (.ind .i) (.ind .j)) busyState = .next t) ∧ ∃ t, exec (.std (.reg .j) .stack) busyState = .next t :=
  ⟨next_of_completes (by decide), next_of_completes (by decide)⟩

theorem witness_ConditionalsFrame :
    (∃ t, exec (.ifb (.ind .i) (.ind .j)) busyState = .next t) ∧ ∃ t, exec (.ifu .stack .stack) busyState = .next t :=
  ⟨next_of_completes (by decide), next_of_completes (by decide)⟩

/-- INT enqueuing, INT delivering, and INT dropped. -/
theorem witness_JumpAndInterruptFrames :
    (∃ t, exec (.jsr (.ind .j)) busyState = .next t) ∧ (∃ t, exec (.rfi (.ind .j)) busyState = .next t) ∧
    (∃ t, exec (.int (.ind .j)) { busyState with fq := true, iq := true, queue := [] } = .next t) ∧
    (∃ t, exec (.int (.ind .j)) { busyState with ia := 0x0100 } = .next t) ∧ ∃ t, exec (.int (.ind .j)) busyState = .next t :=
  ⟨next_of_completes (by decide), next_of_completes (by decide), next_of_completes (by decide), next_of_completes (by decide),
    next_of_completes (by decide)⟩

theorem witness_RegisterTransferFrames :
    (∃ t, exec (.iag (.ind .j)) busyState = .next t) ∧ (∃ t, exec (.hwn .stack) busyState = .next t) ∧
    (∃ t, exec (.ias (.ind .j)) busyState = .next t) ∧ (∃ t, exec (.iaq .stack) busyState = .next t) ∧
    ∃ t, exec (.hwq (.reg .a)) busyState = .next t :=
  ⟨next_of_completes (by decide), next_of_completes (by decide), next_of_completes (by decide), next_of_completes (by decide),
    next_of_completes (by decide)⟩

theorem witness_HwiFrame :
    ∃ t, exec (.hwi (.reg .a)) { busyState with deviceReplies := .item (.returns [.setPc 7, .memWrite 3 4, .interrupt 9]) .ended } = .next t :=
  next_of_completes (by decide)

/-- Room for exactly the message still to come. -/
theorem witness_BasicOperationsNeverFault :
    (Instr.div (.ind .i) (.ind .j)).bOperand ≠ none ∧ { busyState with queue := fullQueue 255 }.roomy ∧
    ∃ t, exec (.div (.ind .i) (.ind .j)) { busyState with queue := fullQueue 255 } = .next t :=
  ⟨by decide, fun n => by cases n with
    | zero => decide +kernel
    | succ n => rw [scheduledMessages]; show _ + (_ + scheduledMessages n .ended) ≤ _; rw [scheduledMessages_ended]; decide +kernel,
    next_of_completes (by decide +kernel)⟩

theorem witness_OnlyRfiLeavesInterruptQueuing :
    { programState [0x8560] with iq := true }.iq = true ∧ ∃ t, step { programState [0x8560] with iq := true } = .next t ∧ t.iq = false :=
  ⟨rfl, next_of_seen (by decide)⟩

theorem witness_OnlyConditionalsAndHwiWriteSkipping :
    (∃ t, exec (.jsr (.ind .j)) { busyState with skipping := true } = .next t) ∧ isConditional (.jsr (.ind .j)) = false ∧
    ∀ a, Instr.jsr (.ind .j) ≠ .hwi a := ⟨next_of_completes (by decide), rfl, fun _ h => nomatch h⟩

theorem witness_QueueIsFifoAndLosesAtMostItsHead : ∃ t, step deliveryState = .next t ∧ t.queue = [2] := next_of_seen (by decide)

theorem witness_DeviceSetNeverChanges :
    ∃ t, step { programState [0x8640] with devices := [device0], deviceReplies := .item (.returns [.setPc 7]) .ended } = .next t ∧ t.pc = 7 :=
  next_of_seen (by decide)

/-- With a stop requested, and without one. -/
theorem witness_StopTakesEffectBeforeTheNextFetch :
    (∃ t, step { programState [0x7c01, 0x0030] with stopRequests := [true] } = .next t ∧ t.status = .stopped) ∧
    ∃ t, step { programState [0x7c01, 0x0030] with stopRequests := [false] } = .next t ∧ t.status = .running :=
  ⟨next_of_seen (by decide), next_of_seen (by decide)⟩

/-- V-I9 and V-F3: 255 messages and 256, the 257th at the start of a cycle, and the 257th before the first cycle. -/
theorem witness_DeviceThreadOverflowEndsTheRun :
    let s : State := { State.reset with schedule := .item [.interrupt 8, .interrupt 9, .memWrite 1 2] .ended, queue := fullQueue 255 }
    nextTurn s.schedule = [.interrupt 8] ++ .interrupt 9 :: [.memWrite 1 2] ∧ s.queue.length + (raised [.interrupt 8]).length = 256 ∧
    s.status = .running ∧ ({ s with fq := true, iq := true } : State).fq = true ∧
    faultOf (exec (.int (.reg .a)) { s with fq := true, iq := true }) = some (.deviceOverload 9) ∧
    faultOf (exec (.int .stack) { s with fq := true, iq := true }) = some (.deviceOverload 9) ∧
    (fullQueue 255).length < 256 ∧ (fullQueue 256).length = 256 ∧
    faultOf (step s) = some (.deviceOverload 9) ∧
    (raised ((fullQueue 255).map .interrupt ++ [.interrupt 7, .interrupt 6]))[256]? = some 6 :=
  ⟨rfl, by decide +kernel⟩

/-- 60_exceptions.md R265, R266: a thread's write after the last access of a cycle is in the memory of the stopped run. -/
theorem test_write_before_observer :
    seen (fun t => (t.mem.word 0x0200, t.status)) (step { programState [0x8801] with
      schedule := .item [] (.item [] (.item [.memWrite 0x0200 5] .ended)), stopRequests := [true] }) = some (0x0005, .stopped) := by
  decide

/-- 70_reset_and_hazards.md R303: where the schedule has no end, the threads' acts are free values, one number after another. -/
theorem test_endless_schedule :
    nextTurn (Supply.free 3) = Config.threadTurn 3 ∧ Supply.tail (.free 3 : Supply (List BusEvent)) = .free 4 := ⟨rfl, rfl⟩

theorem witness_ReadModifyWriteIsTwoAccesses :
    let once : State := { State.reset with schedule := .item [.memWrite 0x0040 7] .ended }
    let later : State := { State.reset with schedule := .item [] (.item [.memWrite 0x0040 7] .ended) }
    once.schedule = .item [.memWrite 0x0040 7] .ended ∧ later.schedule = .item [] (.item [.memWrite 0x0040 7] .ended) ∧
    seen (fun t => t.mem.word 0x0040) (exec (.add (.abs 0x0040) (.lit 3)) once) = some 0x000a := ⟨rfl, rfl, by decide⟩

/-- Both encodings, the one-word one at its last address, 30. -/
theorem witness_SelfJumpChangesNothing :
    let s := programState [0x7f81, 0x0000]
    let u := withWords { State.reset with pc := 30 } [(30, 0xff81)]
    (s.status = .running ∧ s.quiet ∧ s.skipping = false ∧ s.queue = [] ∧ s.stopRequests = [] ∧
      s.mem.word s.pc = 0x7f81 ∧ s.mem.word (s.pc + 1) = s.pc) ∧
    (u.status = .running ∧ u.quiet ∧ u.skipping = false ∧ u.queue = [] ∧ u.stopRequests = [] ∧
      u.pc.toNat ≤ 30 ∧ u.mem.word u.pc = BitVec.ofNat 16 ((u.pc.toNat + 0x21) * 1024 + 0x0381)) ∧
    seen id (step s) = some s ∧ seen id (step u) = some u :=
  ⟨⟨rfl, rfl, rfl, rfl, rfl, by decide⟩, ⟨rfl, rfl, rfl, rfl, rfl, by decide⟩, by decide⟩

theorem witness_ArithmeticLawsOfTheAlu : (0x0003 : Word) ≠ 0 ∧ divResult 0x0007 0x0003 0 = (0x0002, 0x5555) := by decide

end Sys2Proof.Tests
end

/-! SUPPORT. The control part of the state (10_state.md R40, R41, R45, R46), which few instructions write. What each operation,
each instruction and each part of a cycle can do to it is said once here. -/

namespace Sys2Proof.Machine

/-! ## The control part -/

/-- The fields that neither an operand access nor a device thread changes and that say how the run goes on: `skipping`, `iq`, the
run status, the device set and the stops still to be requested. -/
structure Control where
  skipping : Bool
  iq : Bool
  status : RunStatus
  devices : List Device
  stopRequests : List Bool

/-- The control part of a state. -/
def State.control (s : State) : Control := ⟨s.skipping, s.iq, s.status, s.devices, s.stopRequests⟩

theorem State.iq_eq_of_control {s t : State} (h : t.control = s.control) : t.iq = s.iq := congrArg Control.iq h

theorem State.devices_eq_of_control {s t : State} (h : t.control = s.control) : t.devices = s.devices :=
  congrArg Control.devices h

/-- What device threads do is outside the control part. -/
theorem control_of_withBus {t u : State} {c : Control} (h : t = u.withBus t) (hu : u.control = c) : t.control = c :=
  (congrArg State.control h).trans hu

/-! ## Operands -/

@[simp] theorem bindHandle_control (h : Handle) (s : State) : (bindHandle h s).2.control = s.control := by
  cases h <;> rfl

@[simp] theorem putControl_control (p : Place) (v : Word) (s : State) : (putControl p v s).control = s.control := by
  cases p <;> rfl

@[simp] theorem aSide_control (a : Operand) (s : State) : (aSide a s).2.control = s.control := bindHandle_control _ _

@[simp] theorem bSide_control (b a : Operand) (s : State) : (bSide b a s).2.control = s.control :=
  (bindHandle_control _ _).trans (aSide_control a s)

theorem readA_control {a : Operand} {v : Word} {s s' : State} (h : readA a s = .ok (v, s')) : s'.control = s.control := by
  obtain ⟨hf, _⟩ := readA_spec h
  exact control_of_withBus hf (aSide_control a s)

theorem writeA_control {a : Operand} {v : Word} {s s' : State} (h : writeA a v s = .ok s') : s'.control = s.control := by
  obtain ⟨hf, _⟩ := writeHandle_spec h
  exact control_of_withBus hf (by simp)

/-! ## The shapes of instruction -/

theorem combineWithEx_control {f : Word → Word → Word → Word × Word} {b a : Operand} {s s' : State}
    (h : combineWithEx f b a s = .ok s') : s'.control = s.control := by
  obtain ⟨⟨bv, av, hf⟩, _⟩ := combineWithEx_spec h
  exact control_of_withBus hf ((putControl_control _ (f bv av s.ex).1 _).trans (bSide_control b a s))

theorem combine_control {f : Word → Word → Word} {b a : Operand} {s s' : State} (h : combine f b a s = .ok s') :
    s'.control = s.control := by
  obtain ⟨⟨bv, av, hf⟩, _⟩ := combine_spec h
  exact control_of_withBus hf (by simp)

theorem move_control {b a : Operand} {s s' : State} (h : move b a s = .ok s') : s'.control = s.control := by
  obtain ⟨⟨v, hf⟩, _⟩ := move_spec h
  exact control_of_withBus hf (by simp)

theorem moveAndStep_control {d : Word} {b a : Operand} {s s' : State} (h : moveAndStep d b a s = .ok s') :
    s'.control = s.control := by
  unfold moveAndStep at h
  split at h
  · cases h
  · rename_i s1 h1
    have hmove := move_control h1
    cases h
    exact hmove

theorem conditional_control {cond : Word → Word → Bool} {b a : Operand} {s s' : State} (h : conditional cond b a s = .ok s') :
    s'.control = s.control ∨ s'.control = { s.control with skipping := true } := by
  obtain ⟨⟨bv, av, hf⟩, _⟩ := conditional_spec h
  split at hf
  · exact .inl (control_of_withBus hf (bSide_control b a s))
  · exact .inr (control_of_withBus hf (by rw [← bSide_control b a s]; rfl))

/-! ## Interrupt entry and return -/

theorem deliver_control {m : Word} {s s' : State} (h : deliver m s = .ok s') :
    s'.control = s.control ∨ s'.control = { s.control with iq := true } := by
  rcases deliver_spec h with ⟨_, rfl⟩ | ⟨_, hf, _⟩
  · exact .inl rfl
  · exact .inr (control_of_withBus hf rfl)

theorem returnFromInterrupt_control {s s' : State} (h : returnFromInterrupt s = .ok s') :
    s'.control = { s.control with iq := false } := by
  obtain ⟨⟨v, target, hf⟩, _⟩ := returnFromInterrupt_spec h
  exact control_of_withBus hf rfl

theorem dequeueAndDeliver_control {s s' : State} (h : dequeueAndDeliver s = .ok s') :
    s'.control = s.control ∨ s'.control = { s.control with iq := true } := by
  rcases dequeueAndDeliver_spec h with ⟨_, rfl⟩ | ⟨m, rest, _, hd⟩
  · exact .inl rfl
  · exact deliver_control (s := { s with queue := rest }) hd

/-! ## The instructions with a meaning of their own -/

theorem execJsr_control {a : Operand} {s t : State} (h : execJsr a s = .next t) : t.control = s.control := by
  have h := outcome_next.mp h
  split at h
  · cases h
  · rename_i av s1 h1
    have hread := readA_control h1
    split at h
    · cases h
    · rename_i s2 h2
      have hpush : s2.control = s1.control := control_of_withBus (pushWord_spec h2).1 rfl
      cases h
      exact hpush.trans hread

theorem execInt_control {a : Operand} {s t : State} (h : execInt a s = .next t) :
    t.control = s.control ∨ t.control = { s.control with iq := true } := by
  have h := outcome_next.mp h
  split at h
  · cases h
  · rename_i av s1 h1
    rw [← readA_control h1]
    split at h
    · split at h
      · cases h
      · rename_i s2 h2
        have hturn : s2.control = s1.control := control_of_withBus (busTurn_spec h2).1 rfl
        obtain ⟨_, rfl⟩ := enqueue_spec h
        exact .inl hturn
    · exact deliver_control h

theorem execIas_control {a : Operand} {s t : State} (h : execIas a s = .next t) : t.control = s.control := by
  have h := outcome_next.mp h
  split at h
  · cases h
  · rename_i av s1 h1
    have hread := readA_control h1
    cases h
    exact hread

theorem execIaq_control {a : Operand} {s t : State} (h : execIaq a s = .next t) : t.control = s.control := by
  have h := outcome_next.mp h
  split at h
  · cases h
  · rename_i av s1 h1
    have hread := readA_control h1
    cases h
    exact hread

theorem execHwq_control {a : Operand} {s t : State} (h : execHwq a s = .next t) : t.control = s.control := by
  have h := outcome_next.mp h
  split at h
  · cases h
  · rename_i av s1 h1
    have hread := readA_control h1
    split at h
    · cases h
    · cases h
      exact hread

/-- A device's handler may write `skipping`, and nothing else of the control part (10_state.md R47). -/
theorem DeviceEffect.control {s s' : State} (h : DeviceEffect s s') :
    s'.control = { s.control with skipping := s'.skipping } := by
  simp [State.control, h.iq, h.status, h.devices, h.stopRequests]

theorem execHwi_control {a : Operand} {s t : State} (h : execHwi a s = .next t) :
    t.control = { s.control with skipping := t.skipping } := by
  have h := outcome_next.mp h
  split at h
  · cases h
  · rename_i av s1 h1
    rw [← readA_control h1]
    split at h
    · cases h
    · exact (deviceInterrupt_spec h).control

/-! ## Any instruction -/

/-- All an instruction can do to the control part: a conditional may set `skipping`, INT may set `iq`, RFI clears `iq`, the device
of HWI may write `skipping`; every instruction may leave it alone. -/
inductive ControlChange : Instr → Control → Control → Prop where
  | kept (i : Instr) (c : Control) : ControlChange i c c
  | skips {i : Instr} (h : isConditional i = true) (c : Control) : ControlChange i c { c with skipping := true }
  | enters (a : Operand) (c : Control) : ControlChange (.int a) c { c with iq := true }
  | returns (a : Operand) (c : Control) : ControlChange (.rfi a) c { c with iq := false }
  | device (a : Operand) (c : Control) (on : Bool) : ControlChange (.hwi a) c { c with skipping := on }

theorem ControlChange.of_eq {i : Instr} {c c' : Control} (h : c' = c) : ControlChange i c c' := h ▸ .kept i c

theorem ControlChange.of_conditional {i : Instr} {c c' : Control} (hi : isConditional i = true)
    (h : c' = c ∨ c' = { c with skipping := true }) : ControlChange i c c' := by
  rcases h with rfl | rfl
  · exact .kept i _
  · exact .skips hi c

theorem exec_control {i : Instr} {s t : State} (h : exec i s = .next t) : ControlChange i s.control t.control := by
  cases i with
  | add | sub | mul | mli | div | dvi | shr | asr | shl | adx | sbx =>
    exact .of_eq (combineWithEx_control (outcome_next.mp h))
  | mod | mdi | and | bor | xor => exact .of_eq (combine_control (outcome_next.mp h))
  | set => exact .of_eq (move_control (outcome_next.mp h))
  | sti | std => exact .of_eq (moveAndStep_control (outcome_next.mp h))
  | ifb | ifc | ife | ifn | ifg | ifa | ifl | ifu => exact .of_conditional rfl (conditional_control (outcome_next.mp h))
  | iag | hwn => exact .of_eq (writeA_control (outcome_next.mp h))
  | jsr a => exact .of_eq (execJsr_control h)
  | ias a => exact .of_eq (execIas_control h)
  | iaq a => exact .of_eq (execIaq_control h)
  | hwq a => exact .of_eq (execHwq_control h)
  | int a =>
    rcases execInt_control h with hc | hc
    · exact .of_eq hc
    · exact hc ▸ .enters a _
  | rfi a => exact returnFromInterrupt_control (outcome_next.mp h) ▸ .returns a _
  | hwi a => exact execHwi_control h ▸ .device a _ _

theorem ControlChange.devices {i : Instr} {c c' : Control} (h : ControlChange i c c') : c'.devices = c.devices := by
  cases h <;> rfl

/-- Only RFI clears `iq` (10_state.md R41). -/
theorem ControlChange.rfi_of_iq_cleared {i : Instr} {c c' : Control} (h : ControlChange i c c') (hset : c.iq = true)
    (hclear : c'.iq = false) : ∃ a, i = .rfi a := by
  cases h with
  | returns a => exact ⟨a, rfl⟩
  | enters a => cases hclear
  | kept | skips | device => exact absurd hclear (by simp [hset])

/-! ## The parts of a cycle -/

theorem interruptStep_control {s s' : State} (h : interruptStep s = .ok s') :
    s'.control = s.control ∨ s'.control = { s.control with iq := true } := by
  unfold interruptStep at h
  split at h
  · cases h
  · rename_i s1 h1
    have hturn : s1.control = s.control := control_of_withBus (busTurn_spec h1).1 rfl
    rw [← hturn]
    split at h
    · cases h
      exact .inl rfl
    · exact dequeueAndDeliver_control h

theorem fetch_control {ws : List Word} {s s' : State} (h : fetch s = .ok (ws, s')) : s'.control = s.control := by
  unfold fetch at h
  split at h
  · cases h
  · rename_i w s1 h1
    split at h
    · cases h
    · rename_i vs s2 h2
      cases h
      have hfirst : s1.control = s.control := control_of_withBus (nextWord_spec h1).1 rfl
      have hrest : s'.control = s1.control := control_of_withBus (nextWords_spec h2).1 rfl
      exact hrest.trans hfirst

/-- The observer writes the run status and takes a request, and nothing else. -/
theorem endCycle_control {s s' : State} (h : endCycle s = .ok s') :
    s'.control = { s.control with status := s'.status, stopRequests := s'.stopRequests } := by
  obtain ⟨s1, hf, _, rfl⟩ := endCycle_spec h
  have hturn : s1.control = s.control := control_of_withBus hf rfl
  rw [← hturn]
  exact congrArg State.control (observe_spec s1).1

/-- All step 6 of a cycle can do: the words spell an instruction, and it is skipped or executed. -/
theorem executeOrSkip_spec {start : Word} {ws : List Word} {s t : State} (h : executeOrSkip start ws s = .next t) :
    ∃ i rest, decode ws = .ok (i, rest) ∧
      ((s.skipping = true ∧ t = skipStep i s) ∨ (s.skipping = false ∧ exec i s = .next t)) := by
  unfold executeOrSkip at h
  split at h
  · cases h
  · rename_i i rest hd
    refine ⟨i, rest, hd, ?_⟩
    split at h
    · cases h
      exact .inl ⟨‹_›, rfl⟩
    · exact .inr ⟨Bool.eq_false_of_not_eq_true ‹_›, h⟩

/-- All a step that answers a next state can do: the core was running, and the four parts of a cycle follow one another
(41_cycle_and_skip.md R130). -/
theorem step_spec {s t : State} (h : step s = .next t) :
    s.status = .running ∧ ∃ s1 ws s2 s3, interruptStep s = .ok s1 ∧ fetch s1 = .ok (ws, s2) ∧
      executeOrSkip s1.pc ws s2 = .next s3 ∧ endCycle s3 = .ok t := by
  unfold step at h
  split at h
  · rename_i hrun
    refine ⟨hrun, ?_⟩
    unfold cycle at h
    split at h
    · cases h
    · rename_i s1 h1
      split at h
      · cases h
      · rename_i ws s2 h2
        split at h
        · rename_i s3 h3
          exact ⟨s1, ws, s2, s3, h1, h2, h3, outcome_next.mp h⟩
        · cases h
        · cases h
  · cases h
  · cases h

/-! ## `iq` and the device set along the parts of a cycle -/

theorem interruptStep_iq {s s' : State} (h : interruptStep s = .ok s') (hiq : s.iq = true) : s'.iq = true := by
  rcases interruptStep_control h with hc | hc
  · exact (State.iq_eq_of_control hc).trans hiq
  · exact congrArg Control.iq hc

theorem interruptStep_devices {s s' : State} (h : interruptStep s = .ok s') : s'.devices = s.devices := by
  rcases interruptStep_control h with hc | hc <;> exact congrArg Control.devices hc

theorem executeOrSkip_devices {start : Word} {ws : List Word} {s t : State} (h : executeOrSkip start ws s = .next t) :
    t.devices = s.devices := by
  obtain ⟨i, rest, _, ⟨_, rfl⟩ | ⟨_, hexec⟩⟩ := executeOrSkip_spec h
  · rfl
  · exact (exec_control hexec).devices

/-- Step 6 clears `iq` only by executing an RFI: a skipped instruction leaves `iq` alone. -/
theorem executeOrSkip_rfi_of_iq_cleared {start : Word} {ws : List Word} {s t : State} (h : executeOrSkip start ws s = .next t)
    (hset : s.iq = true) (hclear : t.iq = false) :
    ∃ a rest, decode ws = .ok (.rfi a, rest) ∧ s.skipping = false := by
  obtain ⟨i, rest, hdecode, ⟨_, rfl⟩ | ⟨hskip, hexec⟩⟩ := executeOrSkip_spec h
  · exact absurd (hset.symm.trans hclear) (by decide)
  · obtain ⟨a, rfl⟩ := (exec_control hexec).rfi_of_iq_cleared hset hclear
    exact ⟨a, rest, hdecode, hskip⟩

/-! ## The obligations -/

/-- Settles O52: `iq` is still set when step 6 begins and already clear when it ends, so step 6 executed an RFI. -/
theorem onlyRfiLeavesInterruptQueuing : Obligations.OnlyRfiLeavesInterruptQueuing := by
  intro s t h hset hclear
  obtain ⟨_, s1, ws, s2, s3, hint, hfetch, hexec, hend⟩ := step_spec h
  have hset2 : s2.iq = true := (State.iq_eq_of_control (fetch_control hfetch)).trans (interruptStep_iq hint hset)
  have hclear3 : s3.iq = false := (congrArg Control.iq (endCycle_control hend)).symm.trans hclear
  obtain ⟨a, rest, hdecode, hskip⟩ := executeOrSkip_rfi_of_iq_cleared hexec hset2 hclear3
  exact ⟨s1, s2, ws, rest, a, hint, hfetch, hdecode, hskip⟩

/-- Settles O55: no part of a cycle changes the device set. -/
theorem deviceSetNeverChanges : Obligations.DeviceSetNeverChanges := by
  intro s t h
  obtain ⟨_, s1, ws, s2, s3, hint, hfetch, hexec, hend⟩ := step_spec h
  calc t.devices
    _ = s3.devices := congrArg Control.devices (endCycle_control hend)
    _ = s2.devices := executeOrSkip_devices hexec
    _ = s1.devices := State.devices_eq_of_control (fetch_control hfetch)
    _ = s.devices := interruptStep_devices hint

end Sys2Proof.Machine

/-! SUPPORT. The memory as the load and the device threads see it: the Words `bulk_set` stores and those it leaves (20_memory.md
R70), the Words of an image's bytes (R64), and the two accesses of a read-modify-write (R75). -/

namespace Sys2Proof.Machine

/-! ## `bulk_set` -/

/-- Past the end of the memory the load drops every Word. -/
theorem Memory.bulkSet_past_end {offset : Nat} (words : List Word) (m : Memory) (h : 65535 < offset) :
    Memory.bulkSet offset words m = m := by
  cases words with
  | nil => rfl
  | cons w ws => exact if_neg (Nat.not_lt.mpr h)

/-- Inside the memory the load stores the first Word at the offset and goes on with the rest at the next address. -/
theorem Memory.bulkSet_cons {offset : Nat} (w : Word) (ws : List Word) (m : Memory) (h : offset ≤ 65535) :
    Memory.bulkSet offset (w :: ws) m = Memory.bulkSet (offset + 1) ws (m.setWord (BitVec.ofNat 16 offset) w) :=
  if_pos (Nat.lt_succ_of_le h)

/-- An address below the offset or past the words reads as before the load: nothing wraps. -/
theorem Memory.word_bulkSet_outside {offset : Nat} {words : List Word} (m : Memory) {a : Word}
    (h : a.toNat < offset ∨ offset + words.length ≤ a.toNat) : (Memory.bulkSet offset words m).word a = m.word a := by
  induction words generalizing offset m with
  | nil => rfl
  | cons w ws ih =>
    rw [List.length_cons] at h
    rcases Nat.lt_or_ge 65535 offset with hpast | hin
    · rw [Memory.bulkSet_past_end _ m hpast]
    · have hne : a ≠ BitVec.ofNat 16 offset := by
        rintro rfl
        rw [BitVec.toNat_ofNat] at h
        omega
      rw [Memory.bulkSet_cons w ws m hin, ih _ (by omega), Memory.word_setWord_other m w hne]

/-- Word `k` of the load is read back at the address `offset + k`. -/
theorem Memory.word_bulkSet_inside {offset k : Nat} {words : List Word} {a w : Word} (m : Memory) (hw : words[k]? = some w)
    (ha : a.toNat = offset + k) : (Memory.bulkSet offset words m).word a = w := by
  induction words generalizing offset k m with
  | nil => cases hw
  | cons v ws ih =>
    rw [Memory.bulkSet_cons v ws m (by omega)]
    cases k with
    | zero =>
      cases hw
      have hoffset : BitVec.ofNat 16 offset = a := BitVec.eq_of_toNat_eq (by rw [BitVec.toNat_ofNat]; omega)
      rw [hoffset, Memory.word_bulkSet_outside _ (.inl (by omega)), Memory.word_setWord_same]
    | succ k => exact ih _ hw (by omega)

/-! ## The Words of an image's bytes -/

/-- The Word of two bytes that follow one another in an image (20_memory.md R64). -/
def wordOfPair : Config.ByteOrder → Byte × Byte → Word
  | .big, p => wordOfBytes p.1 p.2
  | .little, p => wordOfBytes p.2 p.1

theorem pairBytes_cons (order : Config.ByteOrder) (b0 b1 : Byte) {rest : List Byte} {ws : List Word}
    (h : pairBytes order rest = some ws) : pairBytes order (b0 :: b1 :: rest) = some (wordOfPair order (b0, b1) :: ws) := by
  rw [pairBytes, h]
  cases order <;> rfl

theorem pairBytes_flatMap (order : Config.ByteOrder) (pairs : List (Byte × Byte)) :
    pairBytes order (pairs.flatMap fun p => [p.1, p.2]) = some (pairs.map (wordOfPair order)) := by
  induction pairs with
  | nil => rfl
  | cons p ps ih => exact pairBytes_cons order p.1 p.2 ih

/-! ## A read-modify-write with device threads acting -/

/-- An access point at which the schedule has nothing happen takes its item and is the access alone. -/
theorem busTurn_silent {s : State} {rest : Supply (List BusEvent)} (h : s.schedule = .item [] rest) :
    busTurn s = .ok { s with schedule := rest } := by
  rw [busTurn, h]
  rfl

/-- An access point just before which a device thread writes one Word (20_memory.md R71). -/
theorem busTurn_deviceWrite {s : State} {n w : Word} {rest : Supply (List BusEvent)}
    (h : s.schedule = .item [.memWrite n w] rest) : busTurn s = .ok ({ s with schedule := rest }.storeWord n w) := by
  rw [busTurn, h]
  rfl

theorem addResult_fst (bv av ex : Word) : (addResult bv av ex).1 = bv + av := by
  simp [addResult, wordOfNat, BitVec.ofNat_add]

/-- ADD [n], literal has two access points, one before its read and one before its write (20_memory.md R75): what it leaves at `n`
is the sum with the Word it found at the first, whatever device threads do at the second. -/
theorem exec_add_abs_lit {n v : Word} {s s1 s2 : State} (hread : busTurn s = .ok s1) (hwrite : busTurn s1 = .ok s2) :
    ∃ t, exec (.add (.abs n) (.lit v)) s = .next t ∧ t.mem.word n = s1.mem.word n + v := by
  have hr : readBoth (.abs n) (.lit v) s = .ok (s1.mem.word n, v, .mem n, s1) := by
    simp [readBoth, readHandle, resolve, bindHandle, readPlace, memRead, hread]
  have hw : writePlace (.mem n) (addResult (s1.mem.word n) v s1.ex).1 s1 = .ok (s2.storeWord n (s1.mem.word n + v)) := by
    simp [writePlace, memWrite, hwrite, addResult_fst]
  have hc : combineWithEx addResult (.abs n) (.lit v) s =
      .ok { s2.storeWord n (s1.mem.word n + v) with ex := (addResult (s1.mem.word n) v s1.ex).2 } := by
    rw [combineWithEx, hr]
    simp only [hw]
  exact ⟨_, congrArg outcome hc, Memory.word_setWord_same ..⟩

/-! ## The obligations -/

/-- Settles O2: by induction on the words, each load step writing one Word below the addresses of the others. -/
theorem bulkSetTruncatesAtMemoryEnd : Obligations.BulkSetTruncatesAtMemoryEnd := by
  refine ⟨rfl, fun m offset words => ⟨fun k w hw hk => ?_, fun a h => Memory.word_bulkSet_outside m h⟩⟩
  have haddr : (BitVec.ofNat 16 (offset + k)).toNat = offset + k := Nat.mod_eq_of_lt (Nat.lt_succ_of_le hk)
  exact Memory.word_bulkSet_inside m hw haddr

/-- Settles O3: one induction on the pairs serves both byte orders. -/
theorem imageBytesPairIntoWords : Obligations.ImageBytesPairIntoWords :=
  fun pairs => ⟨pairBytes_flatMap .big pairs, pairBytes_flatMap .little pairs⟩

/-- Settles O58: the device's write falls at the first access point, or at the second. -/
theorem readModifyWriteIsTwoAccesses : Obligations.ReadModifyWriteIsTwoAccesses := by
  intro n v w s
  constructor
  · intro hbefore
    obtain ⟨t, hexec, hsum⟩ := exec_add_abs_lit (n := n) (v := v) (busTurn_deviceWrite hbefore) (busTurn_quiet rfl)
    exact ⟨t, hexec, by rw [hsum, State.storeWord, Memory.word_setWord_same]⟩
  · intro hbetween
    obtain ⟨t, hexec, hsum⟩ := exec_add_abs_lit (n := n) (v := v) (busTurn_silent hbetween) (busTurn_deviceWrite rfl)
    exact ⟨t, hexec, hsum⟩

end Sys2Proof.Machine

/-! SUPPORT. The two directions of the codec (30_encoding.md R86, R93): the fields of a word put it together again, an operand is
read exactly from its code and next word, and each row of the opcode maps is the same row of the encoder. -/

namespace Sys2Proof

/-! ## Fields of the instruction word -/

theorem opField_lt (w : Word) : opField w < 32 := Nat.mod_lt _ (by decide)

theorem bField_lt (w : Word) : bField w < 32 := Nat.mod_lt _ (by decide)

theorem aField_lt (w : Word) : aField w < 64 := Nat.div_lt_of_lt_mul w.isLt

/-- No bit of a word lies outside its three fields (30_encoding.md R81). -/
theorem word_of_fields (w : Word) : BitVec.ofNat 16 (aField w * 1024 + bField w * 32 + opField w) = w := by
  apply BitVec.eq_of_toNat_eq
  have hw := w.isLt
  simp only [aField, bField, opField, BitVec.toNat_ofNat]
  omega

/-! ## Operands -/

@[simp] theorem Reg.index_ofIndex (n : Nat) : (Reg.ofIndex n).index = n % 8 := by
  have hn : n % 8 < 8 := Nat.mod_lt _ (by decide)
  unfold Reg.ofIndex
  interval_cases n % 8 <;> rfl

/-- An operand whose code fits the 5-bit field is no inlined literal (30_encoding.md R85). -/
theorem Operand.legalAsB_of_code_lt {o : Operand} (h : o.code < 32) : o.legalAsB = true := by
  cases o with
  | short k => exact absurd h (by simp [Operand.code])
  | _ => rfl

/-- What the decoder reads as an operand has the code it was read from and carries the Words taken. -/
theorem operandOfCode_ok {c : Nat} {ws rest : List Word} {o : Operand} (hc : c < 64)
    (h : operandOfCode c ws = .ok (o, rest)) : o.code = c ∧ ws = o.nextWords ++ rest := by
  unfold operandOfCode at h
  repeat' split at h
  case h_1 => cases h
  all_goals
    cases h
    refine ⟨?_, rfl⟩
    simp only [Operand.code, Reg.index_ofIndex, BitVec.toNat_ofNat]
    omega

/-- The one way to read no operand: the code takes a next word and there is none. -/
theorem operandOfCode_error {c : Nat} {ws : List Word} {e : Reject} (hc : c < 64)
    (h : operandOfCode c ws = .error e) : codeTakesWord c = true ∧ ws = [] := by
  unfold operandOfCode at h
  repeat' split at h
  case h_1 =>
    refine ⟨?_, rfl⟩
    simp only [codeTakesWord, Bool.or_eq_true, Bool.and_eq_true, decide_eq_true_eq, beq_iff_eq]
    omega
  all_goals cases h

/-- With its next word present, a code reads as an operand (30_encoding.md R91), which takes from the list at most the Word the
code asks for. -/
theorem operandOfCode_completes {c : Nat} {ws : List Word} (hc : c < 64)
    (hws : (if codeTakesWord c then 1 else 0) ≤ ws.length) :
    ∃ o rest, operandOfCode c ws = .ok (o, rest) ∧ ws.length = (if codeTakesWord c then 1 else 0) + rest.length := by
  cases hread : operandOfCode c ws with
  | error e =>
    obtain ⟨htakes, rfl⟩ := operandOfCode_error hc hread
    simp [htakes] at hws
  | ok r =>
    obtain ⟨o, rest⟩ := r
    obtain ⟨rfl, rfl⟩ := operandOfCode_ok hc hread
    exact ⟨o, rest, rfl, by rw [o.codeTakesWord_code, List.length_append]⟩

/-! ## The opcode maps -/

/-- A row of the basic opcode map (30_encoding.md R87) is the encoder's row of the same opcode. -/
theorem basicOfOpcode_ok {n : Nat} {b a : Operand} {i : Instr} (h : basicOfOpcode n b a = .ok i) :
    encode i = encodeBasic n b a ∧ i.bOperand = some b := by
  unfold basicOfOpcode at h
  split at h <;> cases h <;> exact ⟨rfl, rfl⟩

/-- A row of the special opcode map (30_encoding.md R88) is the encoder's row of the same special opcode. -/
theorem specialOfOpcode_ok {n : Nat} {a : Operand} {i : Instr} (h : specialOfOpcode n a = .ok i) :
    encode i = encodeSpecial n a ∧ i.bOperand = none := by
  unfold specialOfOpcode at h
  split at h <;> cases h <;> exact ⟨rfl, rfl⟩

/-- Every instruction is encoded by a row of one of the two opcode maps. -/
theorem Instr.basic_or_special (i : Instr) :
    (∃ n b a, encode i = encodeBasic n b a ∧ n ≠ 0 ∧ n < 32 ∧ basicOfOpcode n b a = .ok i) ∨
    (∃ n a, encode i = encodeSpecial n a ∧ n < 32 ∧ specialOfOpcode n a = .ok i) := by
  cases i with
  | jsr | int | iag | ias | rfi | iaq | hwn | hwq | hwi => exact .inr ⟨_, _, rfl, by decide, rfl⟩
  | _ => exact .inl ⟨_, _, _, rfl, by decide, by decide, rfl⟩

/-- The basic opcodes with no operation, among the nonzero ones (30_encoding.md R89). -/
theorem basicOfOpcode_error_iff {n : Nat} (b a : Operand) (h0 : n ≠ 0) (hn : n < 32) :
    (∃ e, basicOfOpcode n b a = .error e) ↔ n = 0x18 ∨ n = 0x19 ∨ n = 0x1c ∨ n = 0x1d := by
  interval_cases n <;> simp_all [basicOfOpcode]

/-- The special opcodes with no operation (30_encoding.md R90). -/
theorem specialOfOpcode_error_iff {n : Nat} (a : Operand) (hn : n < 32) :
    (∃ e, specialOfOpcode n a = .error e) ↔
      n = 0x00 ∨ (0x02 ≤ n ∧ n ≤ 0x07) ∨ (0x0d ≤ n ∧ n ≤ 0x0f) ∨ (0x13 ≤ n ∧ n ≤ 0x1f) := by
  interval_cases n <;> simp [specialOfOpcode]

/-! ## The decoder -/

/-- What the decoder pairs with the Words left does not decide whether it answers. -/
theorem exists_error_map_iff {α β : Type} {f : α → β} {r : Except Reject α} :
    (∃ e, r.map f = .error e) ↔ ∃ e, r = .error e := by
  cases r <;> simp [Except.map]

/-- With opcode 0 and the `a` operand read, the decoder answers what the special opcode map does. -/
theorem decode_special {w : Word} {ws rest : List Word} {a : Operand} (ho : opField w = 0)
    (ha : operandOfCode (aField w) ws = .ok (a, rest)) :
    decode (w :: ws) = (specialOfOpcode (bField w) a).map (·, rest) := by
  simp only [decode, ha, if_pos ho]
  cases specialOfOpcode (bField w) a <;> rfl

/-- With a nonzero opcode and both operands read, `a` before `b` (30_encoding.md R84), the decoder answers what the basic opcode
map does. -/
theorem decode_basic {w : Word} {ws restA rest : List Word} {b a : Operand} (ho : opField w ≠ 0)
    (ha : operandOfCode (aField w) ws = .ok (a, restA)) (hb : operandOfCode (bField w) restA = .ok (b, rest)) :
    decode (w :: ws) = (basicOfOpcode (opField w) b a).map (·, rest) := by
  simp only [decode, ha, hb, if_neg ho]
  cases basicOfOpcode (opField w) b a <;> rfl

/-- All that a decoder that answers an instruction can have read. -/
theorem decode_ok {ws rest : List Word} {i : Instr} (h : decode ws = .ok (i, rest)) :
    ∃ w ws' a restA, ws = w :: ws' ∧ operandOfCode (aField w) ws' = .ok (a, restA) ∧
      ((opField w = 0 ∧ specialOfOpcode (bField w) a = .ok i ∧ rest = restA) ∨
        (∃ b, operandOfCode (bField w) restA = .ok (b, rest) ∧ basicOfOpcode (opField w) b a = .ok i)) := by
  unfold decode at h
  split at h
  · cases h
  · rename_i w ws'
    split at h
    · cases h
    · rename_i a restA ha
      refine ⟨w, ws', a, restA, rfl, ha, ?_⟩
      split at h
      · rename_i ho
        split at h
        · cases h
        · rename_i hi
          cases h
          exact .inl ⟨ho, hi, rfl⟩
      · split at h
        · cases h
        · rename_i b restB hb
          split at h
          · cases h
          · rename_i hi
            cases h
            exact .inr ⟨b, hb, hi⟩

/-! ## The obligations -/

/-- Settles O6: the fields of the encoding's first Word come out as they were put in, each operand is read back from its code and
next word, and the opcode's row gives the instruction. -/
theorem decodeInvertsEncode : Obligations.DecodeInvertsEncode := by
  intro i rest hwf
  rcases i.basic_or_special with ⟨n, b, a, hencode, h0, hn, hi⟩ | ⟨n, a, hencode, hn, hi⟩
  · obtain ⟨_, hbop⟩ := basicOfOpcode_ok hi
    have hb : b.legalAsB = true := by simpa [Instr.wf, hbop] using hwf
    obtain ⟨hfa, hfb, hfo⟩ := fields_of_word a.code_lt (Operand.code_lt_of_legalAsB hb) hn
    rw [hencode, encodeBasic, List.cons_append, List.append_assoc,
      decode_basic (by rwa [hfo]) (by rw [hfa, operandOfCode_code]) (by rw [hfb, operandOfCode_code]), hfo, hi]
    rfl
  · obtain ⟨hfa, hfb, hfo⟩ := fields_of_word a.code_lt hn (show 0 < 32 by decide)
    rw [Nat.add_zero] at hfa hfb hfo
    rw [hencode, encodeSpecial, List.cons_append, decode_special hfo (by rw [hfa, operandOfCode_code]), hfb, hi]
    rfl

/-- Settles O7: the decoder's operands have the codes in the word's fields, and the fields are the whole word. -/
theorem encodeInvertsDecode : Obligations.EncodeInvertsDecode := by
  intro ws rest i h
  obtain ⟨w, ws, a, restA, rfl, ha, hop⟩ := decode_ok h
  obtain ⟨hca, rfl⟩ := operandOfCode_ok (aField_lt w) ha
  rcases hop with ⟨ho, hi, rfl⟩ | ⟨b, hb, hi⟩
  · obtain ⟨hencode, hbop⟩ := specialOfOpcode_ok hi
    have hword : BitVec.ofNat 16 (a.code * 1024 + bField w * 32) = w := by
      simpa only [hca, ho, Nat.add_zero] using word_of_fields w
    exact ⟨by simp [Instr.wf, hbop], by rw [hencode, encodeSpecial, hword, List.cons_append]⟩
  · obtain ⟨hcb, rfl⟩ := operandOfCode_ok (Nat.lt_trans (bField_lt w) (by decide)) hb
    obtain ⟨hencode, hbop⟩ := basicOfOpcode_ok hi
    have hlegal : b.legalAsB = true := Operand.legalAsB_of_code_lt (hcb ▸ bField_lt w)
    exact ⟨by simp [Instr.wf, hbop, hlegal], by
      rw [hencode, encodeBasic, hca, hcb, word_of_fields, List.cons_append, List.append_assoc]⟩

/-- Settles O9: the operands are read whatever their codes, so only the opcode maps can reject. -/
theorem onlyUnsupportedOpcodesAreRejected : Obligations.OnlyUnsupportedOpcodesAreRejected := by
  intro w ws hws
  have hbField := bField_lt w
  by_cases h0 : opField w = 0
  · have hwords : (if codeTakesWord (aField w) then 1 else 0) ≤ ws.length := by rwa [nextWordCount, if_pos h0] at hws
    obtain ⟨a, rest, ha, _⟩ := operandOfCode_completes (aField_lt w) hwords
    rw [decode_special h0 ha, exists_error_map_iff, specialOfOpcode_error_iff a hbField]
    omega
  · rw [nextWordCount, if_neg h0] at hws
    obtain ⟨a, restA, ha, hlen⟩ := operandOfCode_completes (ws := ws) (aField_lt w) (by omega)
    obtain ⟨b, rest, hb, _⟩ := operandOfCode_completes (c := bField w) (ws := restA) (by omega) (by omega)
    rw [decode_basic h0 ha hb, exists_error_map_iff, basicOfOpcode_error_iff b a h0 (opField_lt w)]
    omega

/-- Settles O8: each word is evaluated. -/
theorem specWordsDecodeAsWritten : Obligations.SpecWordsDecodeAsWritten :=
  ⟨by decide, by decide, by decide, by decide, by decide, by decide⟩

end Sys2Proof

/-! SUPPORT. Operand codes and operand access (30_encoding.md R85, 40_operands.md): the form each code names, the one thing that
binding an operand can change (`sp`, by PUSH and POP), and the value and the write of each form that follow. -/

namespace Sys2Proof

/-! ## Codes -/

/-- The place of a register in the order of 10_state.md R30 is its index. -/
theorem Reg.index_of_getElem? {k : Nat} {r : Reg} (h : [Reg.a, .b, .c, .x, .y, .z, .i, .j][k]? = some r) : r.index = k := by
  obtain ⟨hk, rfl⟩ := List.getElem?_eq_some_iff.mp h
  replace hk : k < 8 := hk
  interval_cases k <;> rfl

/-- The inlined literal of code `c` is named by the low five bits of `c`. -/
theorem operandOfCode_inlined {c : Nat} (ws : List Word) (hlo : 0x20 ≤ c) (hhi : c ≤ 0x3f) :
    operandOfCode c ws = .ok (.short (BitVec.ofNat 5 (c - 0x20)), ws) := by
  have hcode : (Operand.short (BitVec.ofNat 5 (c - 0x20))).code = c := by
    simp only [Operand.code, BitVec.toNat_ofNat]
    omega
  have hread := operandOfCode_code (.short (BitVec.ofNat 5 (c - 0x20))) ws
  rwa [hcode] at hread

end Sys2Proof

namespace Sys2Proof.Machine

/-! ## Inlined literals (30_encoding.md R92) -/

theorem shortValue_eq (k : BitVec 5) : shortValue k = BitVec.ofNat 16 k.toNat - 1 := by
  rw [shortValue, BitVec.ofNat_toNat]

theorem shortValue_of_code {c : Nat} (hlo : 0x20 ≤ c) (hhi : c ≤ 0x3f) :
    shortValue (BitVec.ofNat 5 (c - 0x20)) = BitVec.ofNat 16 c - 0x21 := by
  have hlow : (BitVec.ofNat 5 (c - 0x20)).toNat = c - 0x20 := by
    rw [BitVec.toNat_ofNat]
    omega
  rw [shortValue_eq, hlow]
  bv_omega

/-! ## Binding an operand -/

/-- Only the stack operand's access changes the state when it binds (40_operands.md R115, R116). -/
theorem bindHandle_resolve_of_ne_stack {isA : Bool} {o : Operand} (h : o ≠ .stack) (s s' : State) :
    (bindHandle (resolve isA o s) s').2 = s' := by
  cases o with
  | stack => exact absurd rfl h
  | _ => rfl

theorem aSide_state_of_ne_stack {a : Operand} (h : a ≠ .stack) (s : State) : (aSide a s).2 = s :=
  bindHandle_resolve_of_ne_stack h s s

theorem bSide_state_of_ne_stack {b : Operand} (h : b ≠ .stack) (a : Operand) (s : State) :
    (bSide b a s).2 = (aSide a s).2 :=
  bindHandle_resolve_of_ne_stack h s _

/-- Whatever its form, the `a` operand's access moves `sp` at most. -/
theorem aSide_moves_only_sp (a : Operand) (s : State) : (aSide a s).2 = { s with sp := (aSide a s).2.sp } := by
  by_cases h : a = .stack
  · subst h
    rfl
  · rw [aSide_state_of_ne_stack h]

@[simp] theorem aSide_reg (a : Operand) (s : State) (r : Reg) : (aSide a s).2.reg r = s.reg r := by
  rw [aSide_moves_only_sp]
  rfl

@[simp] theorem aSide_pc (a : Operand) (s : State) : (aSide a s).2.pc = s.pc := by rw [aSide_moves_only_sp]

@[simp] theorem aSide_ex (a : Operand) (s : State) : (aSide a s).2.ex = s.ex := by rw [aSide_moves_only_sp]

@[simp] theorem aSide_mem (a : Operand) (s : State) : (aSide a s).2.mem = s.mem := by rw [aSide_moves_only_sp]

@[simp] theorem bSide_mem (b a : Operand) (s : State) : (bSide b a s).2.mem = s.mem := by
  obtain ⟨_, _, hmem⟩ := bindHandle_bus (resolve false b s) (aSide a s).2
  exact hmem.trans (aSide_mem a s)

/-- An inlined literal binds as the value its code spells. -/
theorem bindHandle_short (isA : Bool) (k : BitVec 5) (s s' : State) :
    bindHandle (resolve isA (.short k) s) s' = (.lit (BitVec.ofNat 16 k.toNat - 1), s') := by
  rw [← shortValue_eq]
  rfl

/-! ## The value and the write of the `b` operand, by the place it is bound to -/

/-- A `b` operand bound to a fixed address reads the Word that was there before `a` was accessed. -/
theorem bValue_of_mem {b a : Operand} {s : State} {x : Word} (h : (bSide b a s).1 = .mem x) :
    bValue b a s = s.mem.word x := by
  rw [bValue, h, placeValue, bSide_mem]

/-- A `b` operand bound to a fixed address stores its Word into the memory from before `a` was accessed. -/
theorem writeB_of_mem {b a : Operand} {s : State} {x : Word} (v : Word) (h : (bSide b a s).1 = .mem x) :
    writeB b a v s = { (bSide b a s).2 with mem := s.mem.setWord x v } := by
  rw [writeB, h, ← bSide_mem b a s]
  rfl

theorem writeB_peek (a : Operand) (v : Word) (s : State) :
    writeB .peek a v s = { (aSide a s).2 with mem := s.mem.setWord (aSide a s).2.sp v } := by
  rw [← aSide_mem a s]
  rfl

/-! ## Reads after a write -/

theorem State.reg_setReg (s : State) (r r' : Reg) (v : Word) :
    (s.setReg r v).reg r' = if r' = r then v else s.reg r' := by
  split
  · subst r'
    exact State.reg_setReg_same s r v
  · exact State.reg_setReg_other s v ‹_›

theorem Memory.word_setWord (m : Memory) (a v x : Word) : (m.setWord a v).word x = if x = a then v else m.word x := by
  split
  · subst x
    exact Memory.word_setWord_same m a v
  · exact Memory.word_setWord_other m v ‹_›

theorem writeB_reg_reg (r r' : Reg) (a : Operand) (v : Word) (s : State) :
    (writeB (.reg r) a v s).reg r' = if r' = r then v else s.reg r' :=
  aSide_reg a s r' ▸ State.reg_setReg (aSide a s).2 r r' v

/-! ## The obligation -/

/-- Settles O10: every code is the code of the form it names; binding changes `sp` at most, so the `b` operand finds the registers
and the memory as they were before `a` was accessed. -/
theorem operandsBindAtTheirEffectiveAddress : Obligations.OperandsBindAtTheirEffectiveAddress := by
  refine ⟨fun k r n ws hr => ?registerCodes, fun n ws => ?otherCodes, fun c ws hlo hhi => ?literalCodes,
    fun a r n v k s => ⟨?placesOfB, ?placesOfA, ?valuesOfA, ?valuesOfB, ?registerWrite, ?otherWrites⟩⟩
  case registerCodes =>
    obtain rfl := Reg.index_of_getElem? hr
    exact ⟨operandOfCode_code (.reg r) ws, operandOfCode_code (.ind r) ws, operandOfCode_code (.indOff r n) ws⟩
  case otherCodes => exact ⟨rfl, rfl, rfl, rfl, rfl, rfl, rfl, rfl⟩
  case literalCodes =>
    have hvalue := shortValue_of_code hlo hhi
    exact ⟨_, operandOfCode_inlined ws hlo hhi, fun s => ⟨congrArg (fun v => (Place.lit v, s)) hvalue, hvalue⟩⟩
  case placesOfB =>
    exact ⟨rfl, rfl, rfl, rfl, rfl, bindHandle_short false k s _, rfl, rfl, rfl, rfl, rfl, rfl, rfl,
      fun b hb => bSide_state_of_ne_stack hb a s⟩
  case placesOfA =>
    exact ⟨rfl, rfl, rfl, rfl, rfl, bindHandle_short true k s s, rfl, rfl, rfl, rfl, rfl, rfl, rfl,
      fun ha => aSide_state_of_ne_stack ha s⟩
  case valuesOfA => exact ⟨rfl, rfl, rfl, rfl, rfl, rfl, rfl, rfl, rfl, rfl, rfl⟩
  case valuesOfB =>
    exact ⟨aSide_reg a s r, rfl, aSide_pc a s, aSide_ex a s, rfl, bValue_of_mem rfl, bValue_of_mem rfl, bValue_of_mem rfl,
      congrArg (Memory.word · _) (aSide_mem a s), bValue_of_mem rfl, bValue_of_mem rfl⟩
  case registerWrite => exact ⟨rfl, fun r' => writeB_reg_reg r r' a v s⟩
  case otherWrites =>
    exact ⟨rfl, rfl, rfl, rfl, writeB_of_mem v rfl, writeB_of_mem v rfl, writeB_of_mem v rfl, writeB_peek a v s,
      writeB_of_mem v rfl, writeB_of_mem v rfl, fun x => Memory.word_setWord s.mem n v x⟩

end Sys2Proof.Machine

/-! SUPPORT. One whole cycle (41_cycle_and_skip.md R130): the Words that decode at `pc` are exactly the Words a fetch takes, no part of
a cycle wakes a quiet schedule of device threads, and so a cycle is the interrupt step, the decoded instruction or the skip step, and
the observer. -/

namespace Sys2Proof

/-! ## The length of an encoding -/

/-- The first Word of a well-formed instruction tells how many Words it has (30_encoding.md R83). -/
theorem encode_length {i : Instr} (hwf : i.wf = true) : (encode i).length = 1 + nextWordCount ((encode i).headD 0) := by
  rcases i.basic_or_special with ⟨n, b, a, hencode, h0, hn, hi⟩ | ⟨n, a, hencode, hn, _⟩
  · obtain ⟨_, hbop⟩ := basicOfOpcode_ok hi
    have hb : b.legalAsB = true := by simpa [Instr.wf, hbop] using hwf
    rw [hencode, Laws.EncodedLength.basic hn h0 hb]
  · rw [hencode, Laws.EncodedLength.special hn]

end Sys2Proof

namespace Sys2Proof.Machine

/-! ## Conditional instructions (41_cycle_and_skip.md R137) -/

theorem basicOfOpcode_isConditional {n : Nat} {b a : Operand} {i : Instr} (h : basicOfOpcode n b a = .ok i) :
    isConditional i = decide (0x10 ≤ n ∧ n ≤ 0x17) := by
  unfold basicOfOpcode at h
  split at h <;> cases h <;> rfl

theorem specialOfOpcode_isConditional {n : Nat} {a : Operand} {i : Instr} (h : specialOfOpcode n a = .ok i) :
    isConditional i = false := by
  unfold specialOfOpcode at h
  split at h <;> cases h <;> rfl

/-- The opcode of the first Word alone decides whether the decoded instruction is conditional. -/
theorem decode_isConditional {w : Word} {ws rest : List Word} {i : Instr} (h : decode (w :: ws) = .ok (i, rest)) :
    isConditional i = decide (0x10 ≤ opField w ∧ opField w ≤ 0x17) := by
  obtain ⟨w', ws', a, restA, hws, _, hop⟩ := decode_ok h
  obtain ⟨rfl, rfl⟩ := List.cons.inj hws
  rcases hop with ⟨ho, hi, _⟩ | ⟨b, _, hi⟩
  · rw [specialOfOpcode_isConditional hi, ho]
    rfl
  · exact basicOfOpcode_isConditional hi

/-- All an instruction can do to `skipping`: only a conditional or the device of HWI writes it. -/
theorem ControlChange.skipping_kept {i : Instr} {c c' : Control} (h : ControlChange i c c') (hcond : isConditional i = false)
    (hhwi : ∀ a, i ≠ .hwi a) : c'.skipping = c.skipping := by
  cases h with
  | kept | enters | returns => rfl
  | skips hi => exact absurd (hi.symm.trans hcond) (by decide)
  | device a => exact absurd rfl (hhwi a)

/-! ## Fetching what decodes -/

/-- A list found at an address is what as many Words read there are. -/
theorem wordsFrom_of_append {m : Memory} {a : Word} {n : Nat} {xs ys : List Word} (h : wordsFrom m a n = xs ++ ys) :
    wordsFrom m a xs.length = xs := by
  induction xs generalizing a n with
  | nil => rfl
  | cons x xs ih =>
    cases n with
    | zero => cases h
    | succ n =>
      obtain ⟨hx, hxs⟩ := List.cons.inj h
      rw [List.length_cons, wordsFrom, hx, ih hxs]

/-- Where an instruction decodes, its encoding stands, and the Word there tells its length. -/
theorem encoded_at_of_decode {m : Memory} {a : Word} {n : Nat} {i : Instr} {rest : List Word}
    (h : decode (wordsFrom m a n) = .ok (i, rest)) :
    wordsFrom m a (encode i).length = encode i ∧ (encode i).length = nextWordCount (m.word a) + 1 ∧ i.wf = true := by
  obtain ⟨hwf, happend⟩ := encodeInvertsDecode _ _ _ h
  have hwords : wordsFrom m a (encode i).length = encode i := wordsFrom_of_append happend
  have hlen : (encode i).length = nextWordCount ((encode i).headD 0) + 1 := by rw [encode_length hwf, Nat.add_comm]
  have hhead : (encode i).headD 0 = m.word a := by
    rw [hlen] at hwords
    rw [← hwords]
    rfl
  exact ⟨hwords, by rw [hlen, hhead], hwf⟩

/-- With the device threads done, a fetch takes the instruction word and as many next words as it asks for. -/
theorem fetch_quiet {s : State} (h : s.quiet) :
    fetch s = .ok (wordsFrom s.mem s.pc (nextWordCount (s.mem.word s.pc) + 1),
      { s with pc := s.pc + BitVec.ofNat 16 (nextWordCount (s.mem.word s.pc) + 1) }) := by
  have hrest := nextWords_quiet (n := nextWordCount (s.mem.word s.pc)) (s := { s with pc := s.pc + 1 }) h
  simp only [fetch, nextWord_quiet h, hrest, wordsFrom, advance_succ]

/-- With the device threads done, a fetch takes exactly the Words of the instruction that decodes at `pc`. -/
theorem fetch_of_decode {s : State} {i : Instr} {rest : List Word} {n : Nat} (hq : s.quiet)
    (h : decode (wordsFrom s.mem s.pc n) = .ok (i, rest)) :
    fetch s = .ok (encode i, pastWords i s) ∧ decode (encode i) = .ok (i, []) := by
  obtain ⟨hwords, hlen, hwf⟩ := encoded_at_of_decode h
  constructor
  · rw [fetch_quiet hq, ← hlen, hwords]
    rfl
  · simpa using decodeInvertsEncode i [] hwf

/-! ## Quiet device threads stay quiet -/

theorem MemEffect.quiet {p : List Word} {s s' : State} (h : MemEffect p s s') (hq : s.quiet) : s'.quiet := by
  obtain ⟨n, hn⟩ := h.schedule
  rw [State.quiet, hn, hq, Supply.drop_ended]

theorem DeviceEffect.quiet {s s' : State} (h : DeviceEffect s s') (hq : s.quiet) : s'.quiet := h.schedule.trans hq

theorem quiet_deliver {m : Word} {s s' : State} (h : deliver m s = .ok s') (hq : s.quiet) : s'.quiet := by
  rcases deliver_spec h with ⟨_, rfl⟩ | ⟨_, _, _, he⟩
  · exact hq
  · exact he.quiet hq

theorem quiet_interruptStep {s s' : State} (h : interruptStep s = .ok s') (hq : s.quiet) : s'.quiet := by
  simp only [interruptStep, busTurn_quiet hq] at h
  split at h
  · cases h
    exact hq
  · rcases dequeueAndDeliver_spec h with ⟨_, rfl⟩ | ⟨m, rest, _, hd⟩
    · exact hq
    · exact quiet_deliver hd hq

theorem quiet_moveAndStep {d : Word} {b a : Operand} {s s' : State} (h : moveAndStep d b a s = .ok s') (hq : s.quiet) :
    s'.quiet := by
  unfold moveAndStep at h
  split at h
  · cases h
  · rename_i s1 h1
    have hmove : s1.quiet := (move_spec h1).2.quiet hq
    cases h
    exact hmove

theorem quiet_execJsr {a : Operand} {s t : State} (h : execJsr a s = .next t) (hq : s.quiet) : t.quiet := by
  simp only [execJsr, readA_quiet hq, pushWord_quiet (quiet_aSide hq)] at h
  cases h
  exact quiet_aSide (a := a) hq

theorem quiet_execInt {a : Operand} {s t : State} (h : execInt a s = .next t) (hq : s.quiet) : t.quiet := by
  have hread : (aSide a s).2.quiet := quiet_aSide hq
  simp only [execInt, readA_quiet hq, busTurn_quiet hread, outcome_next] at h
  split at h
  · obtain ⟨_, rfl⟩ := enqueue_spec h
    exact hread
  · exact quiet_deliver h hread

theorem quiet_execHwq {a : Operand} {s t : State} (h : execHwq a s = .next t) (hq : s.quiet) : t.quiet := by
  simp only [execHwq, readA_quiet hq, outcome_next] at h
  split at h
  · cases h
  · cases h
    exact quiet_aSide (a := a) hq

theorem quiet_execHwi {a : Operand} {s t : State} (h : execHwi a s = .next t) (hq : s.quiet) : t.quiet := by
  simp only [execHwi, readA_quiet hq, outcome_next] at h
  split at h
  · cases h
  · exact (deviceInterrupt_spec h).quiet (quiet_aSide hq)

/-- No instruction gives device threads that are done more to do. -/
theorem quiet_exec {i : Instr} {s t : State} (h : exec i s = .next t) (hq : s.quiet) : t.quiet := by
  cases i with
  | add | sub | mul | mli | div | dvi | shr | asr | shl | adx | sbx =>
    exact (combineWithEx_spec (outcome_next.mp h)).2.quiet hq
  | mod | mdi | and | bor | xor => exact (combine_spec (outcome_next.mp h)).2.quiet hq
  | set => exact (move_spec (outcome_next.mp h)).2.quiet hq
  | sti | std => exact quiet_moveAndStep (outcome_next.mp h) hq
  | ifb | ifc | ife | ifn | ifg | ifa | ifl | ifu => exact (conditional_spec (outcome_next.mp h)).2.quiet hq
  | iag | hwn => exact (writeHandle_spec (outcome_next.mp h)).2.quiet hq
  | rfi => exact (returnFromInterrupt_spec (outcome_next.mp h)).2.quiet hq
  | jsr => exact quiet_execJsr h hq
  | int => exact quiet_execInt h hq
  | hwq => exact quiet_execHwq h hq
  | hwi => exact quiet_execHwi h hq
  | ias a =>
    simp only [exec, execIas, readA_quiet hq] at h
    cases h
    exact quiet_aSide (a := a) hq
  | iaq a =>
    simp only [exec, execIaq, readA_quiet hq] at h
    cases h
    exact quiet_aSide (a := a) hq

theorem quiet_executeOrSkip {start : Word} {ws : List Word} {s t : State} (h : executeOrSkip start ws s = .next t)
    (hq : s.quiet) : t.quiet := by
  obtain ⟨i, rest, _, ⟨_, rfl⟩ | ⟨_, hexec⟩⟩ := executeOrSkip_spec h
  · exact hq
  · exact quiet_exec hexec hq

/-! ## The parts of a cycle, put together -/

theorem executeOrSkip_of_decode {start : Word} {ws rest : List Word} {i : Instr} {s : State} (h : decode ws = .ok (i, rest)) :
    executeOrSkip start ws s = if s.skipping then .next (skipStep i s) else exec i s := by
  rw [executeOrSkip, h]

/-- A step that gets past its fetch is step 6 of the cycle and then its end. -/
theorem step_of_fetch {s s1 s2 : State} {ws : List Word} (hrun : s.status = .running) (hint : interruptStep s = .ok s1)
    (hfetch : fetch s1 = .ok (ws, s2)) :
    step s = thenNext (fun t => outcome (endCycle t)) (executeOrSkip s1.pc ws s2) := by
  simp only [step, hrun, cycle, hint, hfetch]
  cases executeOrSkip s1.pc ws s2 <;> rfl

/-- What follows a next state and always completes is a map over next states. -/
theorem thenNext_eq_mapNext {f : State → Host.Outcome State Fault Refusal} {g : State → State}
    {r : Host.Outcome State Fault Refusal} (h : ∀ t, r = .next t → f t = .next (g t)) : thenNext f r = mapNext g r := by
  cases r with
  | next t => exact h t rfl
  | fault | refused => rfl

/-- With the device threads done, the end of a cycle is the observer alone. -/
theorem step_of_fetch_quiet {s s1 s2 : State} {ws : List Word} (hrun : s.status = .running) (hint : interruptStep s = .ok s1)
    (hfetch : fetch s1 = .ok (ws, s2)) (hq : s2.quiet) : step s = mapNext observe (executeOrSkip s1.pc ws s2) := by
  rw [step_of_fetch hrun hint hfetch]
  apply thenNext_eq_mapNext
  intro t ht
  rw [endCycle_quiet (quiet_executeOrSkip ht hq), outcome]

/-- A skipping core takes no message (41_cycle_and_skip.md R131). -/
theorem interruptStep_of_skipping {s : State} (hq : s.quiet) (hskip : s.skipping = true) : interruptStep s = .ok s := by
  simp [interruptStep, busTurn_quiet hq, hskip]

/-! ## The obligations -/

/-- Settles O11: past the fetch a cycle is step 6 and its end; with quiet device threads the fetch takes the decoded instruction's own
Words, and the end is the observer. -/
theorem stepRunsTheDecodedInstruction : Obligations.StepRunsTheDecodedInstruction := by
  constructor
  · intro s s1 s2 ws rest i hrun hint hfetch hdecode
    rw [step_of_fetch hrun hint hfetch, executeOrSkip_of_decode hdecode]
  · intro s s1 i rest hrun hq hint hdecode
    have hq1 : s1.quiet := quiet_interruptStep hint hq
    obtain ⟨hfetch, hwords⟩ := fetch_of_decode hq1 hdecode
    rw [step_of_fetch_quiet hrun hint hfetch hq1, executeOrSkip_of_decode hwords]
    rfl

/-- Settles O12: step 1 takes no message, the cycle runs the skip step, and the opcode in the instruction word says whether that
ends the chain. -/
theorem skippedInstructionOnlyAdvances : Obligations.SkippedInstructionOnlyAdvances := by
  intro s i rest hrun hq hskip hdecode
  have hcond : isConditional i = decide (0x10 ≤ opField (s.mem.word s.pc) ∧ opField (s.mem.word s.pc) ≤ 0x17) :=
    decode_isConditional hdecode
  obtain ⟨_, hquiet⟩ := stepRunsTheDecodedInstruction
  rw [hquiet s s i rest hrun hq (interruptStep_of_skipping hq hskip) hdecode, if_pos hskip, ← hcond]
  rfl

/-- Settles O53: of the changes an instruction can make to the control part, only those of a conditional and of HWI's device touch
`skipping`. -/
theorem onlyConditionalsAndHwiWriteSkipping : Obligations.OnlyConditionalsAndHwiWriteSkipping :=
  fun _ _ _ hexec hcond hhwi => (exec_control hexec).skipping_kept hcond hhwi

end Sys2Proof.Machine

/-! SUPPORT. The basic operations (42_alu.md): each result function in the spelling of the statements about it, what an operation
answers with quiet device threads, its frame for every schedule, and that it never faults in a roomy state. -/

namespace Sys2Proof.Machine

/-! ## Results and EX values -/

/-- `sint` is the two's-complement value of a bit vector (00_scope.md R11). -/
theorem sint_eq_toInt (v : Word) : sint v = v.toInt := by
  rw [sint, BitVec.toInt_eq_toNat_cond]
  split <;> omega

/-- The difference of two Words narrowed from the integers is their difference modulo 2^16. -/
theorem wordOfInt_toNat_sub (x y : Word) : wordOfInt ((x.toNat : Int) - y.toNat) = x - y := by
  apply BitVec.eq_of_toNat_eq
  rw [wordOfInt, BitVec.toNat_ofInt, BitVec.toNat_sub]
  omega

theorem addResult_eq (bv av ex : Word) :
    addResult bv av ex = (bv + av, if 0xffff < bv.toNat + av.toNat then 0x0001 else 0x0000) :=
  Prod.ext (addResult_fst bv av ex) rfl

theorem subResult_eq (bv av ex : Word) :
    subResult bv av ex = (bv - av, if bv.toNat < av.toNat then 0xffff else 0x0000) := by
  have hborrow : (bv.toNat : Int) - av.toNat < 0 ↔ bv.toNat < av.toNat := by omega
  simp only [subResult, wordOfInt_toNat_sub, hborrow]

theorem mulResult_eq (bv av ex : Word) :
    mulResult bv av ex = (bv * av, BitVec.ofNat 16 (bv.toNat * av.toNat / 65536)) := by
  simp [mulResult, wordOfNat, BitVec.ofNat_mul, Nat.shiftRight_eq_div_pow]

/-- An arithmetic shift to the right divides by a power of two, rounding down. -/
theorem shiftRight_eq_fdiv (z : Int) (n : Nat) : z >>> n = z.fdiv (2 ^ n) := by
  rw [Int.shiftRight_eq_div_pow, Int.fdiv_eq_ediv_of_nonneg z (by positivity), Nat.cast_pow, Nat.cast_ofNat]

theorem mliResult_eq (bv av ex : Word) :
    mliResult bv av ex =
      (BitVec.ofInt 16 (bv.toInt * av.toInt), BitVec.ofInt 16 ((bv.toInt * av.toInt).fdiv 65536)) := by
  simp only [mliResult, sint_eq_toInt, shiftRight_eq_fdiv]
  rfl

theorem divResult_eq (bv av ex : Word) :
    divResult bv av ex =
      (if av = 0 then 0 else bv / av, if av = 0 then 0 else BitVec.ofNat 16 (bv.toNat * 65536 / av.toNat)) := by
  unfold divResult
  split
  · rfl
  · rw [BitVec.udiv_def, Nat.shiftLeft_eq]
    rfl

theorem dviResult_eq (bv av ex : Word) :
    dviResult bv av ex =
      (if av = 0 then 0 else BitVec.ofInt 16 (bv.toInt.tdiv av.toInt),
        if av = 0 then 0 else BitVec.ofInt 16 ((bv.toInt * 65536).tdiv av.toInt)) := by
  simp only [dviResult, sint_eq_toInt]
  split <;> rfl

theorem modResult_eq (bv av : Word) : modResult bv av = if av = 0 then 0 else bv % av := by
  rw [modResult, ← Nat.mod_def, BitVec.umod_def]
  rfl

theorem mdiResult_eq (bv av : Word) :
    mdiResult bv av = if av = 0 then 0 else BitVec.ofInt 16 (bv.toInt.tmod av.toInt) := by
  simp only [mdiResult, sint_eq_toInt, ← Int.tmod_def]
  rfl

theorem shrResult_eq (bv av ex : Word) :
    shrResult bv av ex = (bv >>> av.toNat, BitVec.ofNat 16 (bv.toNat * 65536 / 2 ^ av.toNat)) := by
  have hresult : wordOfNat (bv.toNat >>> av.toNat) = bv >>> av.toNat := by
    rw [wordOfNat, ← BitVec.toNat_ushiftRight, BitVec.ofNat_toNat, BitVec.setWidth_eq]
  rw [shrResult, hresult, Nat.shiftLeft_eq, Nat.shiftRight_eq_div_pow]
  rfl

theorem asrResult_eq (bv av ex : Word) :
    asrResult bv av ex =
      (BitVec.ofInt 16 (bv.toInt.fdiv (2 ^ av.toNat)), BitVec.ofInt 16 ((bv.toInt * 65536).fdiv (2 ^ av.toNat))) := by
  simp only [asrResult, sint_eq_toInt, shiftRight_eq_fdiv]
  rfl

theorem shlResult_eq (bv av ex : Word) :
    shlResult bv av ex = (bv <<< av.toNat, BitVec.ofNat 16 (bv.toNat * 2 ^ av.toNat / 65536)) := by
  have hresult : wordOfNat (bv.toNat <<< av.toNat) = bv <<< av.toNat := rfl
  rw [shlResult, hresult, Nat.shiftLeft_eq, Nat.shiftRight_eq_div_pow]
  rfl

theorem adxResult_eq (bv av ex : Word) :
    adxResult bv av ex =
      (bv + av + ex, if 0xffff < bv.toNat + av.toNat + ex.toNat then 0x0001 else 0x0000) := by
  simp [adxResult, wordOfNat, BitVec.ofNat_add]

/-- The two stages of SBX, each wrapping and counting, come to one sum with one range check (42_alu.md R167). -/
theorem sbxResult_eq (bv av ex : Word) :
    sbxResult bv av ex =
      (bv - av + ex,
        if bv.toNat + ex.toNat < av.toNat then 0xffff
        else if 0xffff + av.toNat < bv.toNat + ex.toNat then 0x0001 else 0x0000) := by
  have hex := ex.isLt
  have hborrow : (bv.toNat : Int) - av.toNat < 0 ↔ bv.toNat < av.toNat := by omega
  apply Prod.ext
  · apply BitVec.eq_of_toNat_eq
    simp only [sbxResult, wordOfInt, BitVec.toNat_ofInt, BitVec.toNat_add, BitVec.toNat_sub]
    split <;> split <;> omega
  · simp only [sbxResult, hborrow]
    by_cases h : bv.toNat < av.toNat
    · simp only [h, if_true]
      grind
    · simp only [h, if_false]
      grind

/-! ## Quiet device threads: what the shapes of instruction answer -/

/-- A basic operation that writes EX, its result and its new EX named by `hf`. -/
theorem combineWithEx_next {f : Word → Word → Word → Word × Word} {r x : Word} {b a : Operand} {s : State} (hq : s.quiet)
    (hf : f (bValue b a s) (aValue a s) s.ex = (r, x)) :
    outcome (combineWithEx f b a s) = .next { writeB b a r s with ex := x } := by
  rw [combineWithEx_quiet hq, hf, outcome]

/-- A basic operation that leaves EX alone, its result named by `hf`. -/
theorem combine_next {f : Word → Word → Word} {r : Word} {b a : Operand} {s : State} (hq : s.quiet)
    (hf : f (bValue b a s) (aValue a s) = r) : outcome (combine f b a s) = .next (writeB b a r s) := by
  rw [combine_quiet hq, hf, outcome]

theorem moveAndStep_quiet {d : Word} {b a : Operand} {s : State} (hq : s.quiet) :
    moveAndStep d b a s =
      .ok { writeB b a (aValue a s) s with
        regs := { (writeB b a (aValue a s) s).regs with
          i := (writeB b a (aValue a s) s).regs.i + d
          j := (writeB b a (aValue a s) s).regs.j + d } } := by
  rw [moveAndStep, move_quiet hq]
  rfl

/-! ## Every schedule: the frame of the `b` operand's write -/

theorem aSide_eq_stackMovedByA (a : Operand) (s : State) : (aSide a s).2 = { s with sp := stackMovedByA a s } := by
  by_cases h : a = .stack
  · subst h
    rfl
  · simp [aSide_state_of_ne_stack h, stackMovedByA, h]

/-- Whatever the forms of the operands, binding both moves `sp` and nothing else (40_operands.md R115, R116). -/
theorem bSide_eq_stackMoved (b a : Operand) (s : State) : (bSide b a s).2 = { s with sp := stackMoved b a s } := by
  by_cases h : b = .stack
  · subst h
    have hpush : (bSide .stack a s).2 = { (aSide a s).2 with sp := (aSide a s).2.sp - 1 } := rfl
    rw [hpush, aSide_eq_stackMovedByA]
    rfl
  · simp [bSide_state_of_ne_stack h, aSide_eq_stackMovedByA, stackMoved, stackMovedByA, h]

/-- Outside the memory the write of a bound `b` operand reaches only the register, SP, PC or EX that the operand names
(40_operands.md R113 to R121). -/
theorem putControl_bSide_kept (b a : Operand) (v : Word) (s u : State) :
    (∀ r, b ≠ .reg r → (putControl (bSide b a s).1 v u).reg r = u.reg r) ∧
    (b ≠ .sp → (putControl (bSide b a s).1 v u).sp = u.sp) ∧ (b ≠ .pc → (putControl (bSide b a s).1 v u).pc = u.pc) ∧
    (b ≠ .ex → (putControl (bSide b a s).1 v u).ex = u.ex) := by
  cases b with
  | reg r' =>
    exact ⟨fun r hr => State.reg_setReg_other u v fun heq => hr (heq ▸ rfl), fun _ => rfl, fun _ => rfl, fun _ => rfl⟩
  | sp => exact ⟨fun _ _ => rfl, fun h => absurd rfl h, fun _ => rfl, fun _ => rfl⟩
  | pc => exact ⟨fun _ _ => rfl, fun _ => rfl, fun h => absurd rfl h, fun _ => rfl⟩
  | ex => exact ⟨fun _ _ => rfl, fun _ => rfl, fun _ => rfl, fun h => absurd rfl h⟩
  | _ => exact ⟨fun _ _ => rfl, fun _ => rfl, fun _ => rfl, fun _ => rfl⟩

/-- Outside the memory a write reaches the general registers, SP, PC and EX alone. -/
theorem putControl_writes_only (p : Place) (v : Word) (s : State) :
    putControl p v s = { s with
      regs := (putControl p v s).regs, pc := (putControl p v s).pc, sp := (putControl p v s).sp
      ex := (putControl p v s).ex } := by
  cases p <;> rfl

/-- The frame of an operation that writes `b` and nothing else, whatever device threads do meanwhile. -/
structure WritesOnlyB (b a : Operand) (s t : State) : Prop where
  destination : onlyDestinationWritten b a s t
  ex : b ≠ .ex → t.ex = s.ex
  ia : t.ia = s.ia
  iq : t.iq = s.iq
  fq : t.fq = s.fq
  skipping : t.skipping = s.skipping
  surroundings : surroundingsKept s t

/-- The write of the bound `b` operand keeps the frame. -/
theorem writesOnlyB_of_putControl {b a : Operand} {v : Word} {s t : State}
    (ht : t = (putControl (bSide b a s).1 v (bSide b a s).2).withBus t) (he : MemEffect (storedByB b a s) s t) :
    WritesOnlyB b a s t := by
  obtain ⟨hreg, hsp, hpc, hex⟩ := putControl_bSide_kept b a v s { s with sp := stackMoved b a s }
  rw [bSide_eq_stackMoved] at ht
  have hrest : t = { s with regs := t.regs, pc := t.pc, sp := t.sp, ex := t.ex }.withBus t := by
    rw [ht, putControl_writes_only]
  exact {
    destination := ⟨fun r hr => (congrArg (State.reg · r) ht).trans (hreg r hr),
      fun hb => (congrArg State.sp ht).trans (hsp hb), fun hb => (congrArg State.pc ht).trans (hpc hb), he.kept⟩
    ex := fun hb => (congrArg State.ex ht).trans (hex hb)
    ia := by rw [hrest]
    iq := by rw [hrest]
    fq := by rw [hrest]
    skipping := by rw [hrest]
    surroundings := ⟨by rw [hrest], by rw [hrest], by rw [hrest], by rw [hrest], he.turns⟩ }

theorem combine_writesOnlyB {f : Word → Word → Word} {b a : Operand} {s t : State} (h : combine f b a s = .ok t) :
    WritesOnlyB b a s t := by
  obtain ⟨⟨bv, av, ht⟩, he⟩ := combine_spec h
  exact writesOnlyB_of_putControl ht he

theorem move_writesOnlyB {b a : Operand} {s t : State} (h : move b a s = .ok t) : WritesOnlyB b a s t := by
  obtain ⟨⟨v, ht⟩, he⟩ := move_spec h
  exact writesOnlyB_of_putControl ht he

/-- An operation that writes EX is one that writes `b` alone, and the write of EX after it (42_alu.md R170). -/
theorem combineWithEx_writesOnlyB {f : Word → Word → Word → Word × Word} {b a : Operand} {s t : State}
    (h : combineWithEx f b a s = .ok t) : ∃ u, WritesOnlyB b a s u ∧ t = { u with ex := t.ex } := by
  obtain ⟨⟨bv, av, ht⟩, he⟩ := combineWithEx_spec h
  refine ⟨(putControl (bSide b a s).1 (f bv av s.ex).1 (bSide b a s).2).withBus t, ?_, by rw [ht]⟩
  exact writesOnlyB_of_putControl rfl (he.congr rfl rfl rfl rfl rfl rfl)

/-- STI and STD are a move, and the steps of I and J after it (42_alu.md R168, R169). -/
theorem moveAndStep_writesOnlyB {d : Word} {b a : Operand} {s t : State} (h : moveAndStep d b a s = .ok t) :
    ∃ u, WritesOnlyB b a s u ∧ t = (u.setReg .i (u.reg .i + d)).setReg .j (u.reg .j + d) := by
  unfold moveAndStep at h
  split at h
  · cases h
  · rename_i u hu
    cases h
    exact ⟨u, move_writesOnlyB hu, rfl⟩

/-! ## Roomy states: the operations complete -/

theorem moveAndStep_completes {d : Word} {b a : Operand} {s : State} (h : s.roomy) : ∃ t, moveAndStep d b a s = .ok t := by
  obtain ⟨u, hu⟩ := move_completes (b := b) (a := a) h
  exact ⟨_, by rw [moveAndStep, hu]⟩

/-- A meaning whose operations complete answers a next state. -/
theorem outcome_next_of_completes {r : Except Fault State} (h : ∃ t, r = .ok t) : ∃ t, outcome r = .next t := by
  obtain ⟨t, ht⟩ := h
  exact ⟨t, outcome_next.mpr ht⟩

/-! ## The obligations -/

/-- Settles O18: a move reads `a` and writes `b` without reading it. -/
theorem setWritesTheSource : Obligations.SetWritesTheSource :=
  fun _ _ _ hq => congrArg outcome (move_quiet hq)

/-- Settles O19: the integer sum narrowed is the sum of the Words, and its carry is EX. -/
theorem addWritesSumAndCarry : Obligations.AddWritesSumAndCarry :=
  fun _ _ _ hq => combineWithEx_next hq (addResult_eq _ _ _)

/-- Settles O20: the integer difference narrowed is the difference of the Words, and its sign is the borrow. -/
theorem subWritesDifferenceAndBorrow : Obligations.SubWritesDifferenceAndBorrow :=
  fun _ _ _ hq => combineWithEx_next hq (subResult_eq _ _ _)

/-- Settles O21: the integer product narrowed is the product of the Words, and a shift by 16 takes its high half. -/
theorem mulWritesProductHalves : Obligations.MulWritesProductHalves :=
  fun _ _ _ hq => combineWithEx_next hq (mulResult_eq _ _ _)

/-- Settles O22: `sint` is the signed value of a Word, and a shift by 16 divides by 65536, rounding down. -/
theorem mliWritesSignedProductHalves : Obligations.MliWritesSignedProductHalves :=
  fun _ _ _ hq => combineWithEx_next hq (mliResult_eq _ _ _)

/-- Settles O23: the zero divisor is a case of its own on both sides. -/
theorem divWritesQuotientAndFraction : Obligations.DivWritesQuotientAndFraction :=
  fun _ _ _ hq => combineWithEx_next hq (divResult_eq _ _ _)

/-- Settles O24: as DIV, on signed values and with division toward zero. -/
theorem dviWritesSignedQuotientAndFraction : Obligations.DviWritesSignedQuotientAndFraction :=
  fun _ _ _ hq => combineWithEx_next hq (dviResult_eq _ _ _)

/-- Settles O25: the dividend less the divisor times the quotient is the remainder. -/
theorem modWritesUnsignedRemainder : Obligations.ModWritesUnsignedRemainder :=
  fun _ _ _ hq => combine_next hq (modResult_eq _ _)

/-- Settles O26: the same for the division of signed values toward zero, whose remainder has the dividend's sign. -/
theorem mdiWritesSignedRemainder : Obligations.MdiWritesSignedRemainder :=
  fun _ _ _ hq => combine_next hq (mdiResult_eq _ _)

/-- Settles O27: the three results are the bit vectors' own operations. -/
theorem logicWritesBitwiseResult : Obligations.LogicWritesBitwiseResult :=
  fun _ _ _ hq => ⟨combine_next hq rfl, combine_next hq rfl, combine_next hq rfl⟩

/-- Settles O28: shifts are products with and quotients by powers of two, whatever the count. -/
theorem shrShiftsOutIntoEx : Obligations.ShrShiftsOutIntoEx :=
  fun _ _ _ hq => combineWithEx_next hq (shrResult_eq _ _ _)

/-- Settles O29: an arithmetic shift divides the signed value by a power of two, rounding down, whatever the count. -/
theorem asrShiftsSignInAndOutIntoEx : Obligations.AsrShiftsSignInAndOutIntoEx :=
  fun _ _ _ hq => combineWithEx_next hq (asrResult_eq _ _ _)

/-- Settles O30: the product with a power of two, its low half the shifted Word, whatever the count. -/
theorem shlShiftsOutIntoEx : Obligations.ShlShiftsOutIntoEx :=
  fun _ _ _ hq => combineWithEx_next hq (shlResult_eq _ _ _)

/-- Settles O31: as ADD, with the old EX in the sum. -/
theorem adxAddsExAndCarries : Obligations.AdxAddsExAndCarries :=
  fun _ _ _ hq => combineWithEx_next hq (adxResult_eq _ _ _)

/-- Settles O32: the two stages of SBX come to one sum with one range check. -/
theorem sbxSubtractsAndAddsEx : Obligations.SbxSubtractsAndAddsEx :=
  fun _ _ _ hq => combineWithEx_next hq (sbxResult_eq _ _ _)

/-- Settles O33: STD steps by the Word -1. -/
theorem blockMovesStepIAndJ : Obligations.BlockMovesStepIAndJ := by
  intro b a s hq
  constructor
  · exact congrArg outcome (moveAndStep_quiet hq)
  · simp only [BitVec.sub_eq_add_neg]
    exact congrArg outcome (moveAndStep_quiet hq)

/-- Settles O44: after the write of `b` only EX is written. -/
theorem exWritingOperationsFrame : Obligations.ExWritingOperationsFrame := by
  intro b a i s t hi hexec
  obtain ⟨f, hf⟩ : ∃ f, exec i s = outcome (combineWithEx f b a s) := by
    simp only [List.mem_cons, List.not_mem_nil, or_false] at hi
    rcases hi with rfl | rfl | rfl | rfl | rfl | rfl | rfl | rfl | rfl | rfl | rfl <;> exact ⟨_, rfl⟩
  obtain ⟨u, hu, ht⟩ := combineWithEx_writesOnlyB (outcome_next.mp (hf ▸ hexec))
  rw [ht]
  exact ⟨hu.destination, hu.ia, hu.iq, hu.fq, hu.skipping, hu.surroundings⟩

/-- Settles O45: each of the six is a move or a combination that writes `b` alone. -/
theorem otherWritingOperationsFrame : Obligations.OtherWritingOperationsFrame := by
  intro b a i s t hi hexec
  have hframe : WritesOnlyB b a s t := by
    simp only [List.mem_cons, List.not_mem_nil, or_false] at hi
    rcases hi with rfl | hcombine
    · exact move_writesOnlyB (outcome_next.mp hexec)
    · rcases hcombine with rfl | rfl | rfl | rfl | rfl <;> exact combine_writesOnlyB (outcome_next.mp hexec)
  exact ⟨hframe.destination, hframe.ex, hframe.ia, hframe.iq, hframe.fq, hframe.skipping, hframe.surroundings⟩

/-- Settles O46: after the move only I and J are written. -/
theorem blockMovesFrame : Obligations.BlockMovesFrame := by
  intro b a i s t hi hexec
  obtain ⟨d, hd⟩ : ∃ d, exec i s = outcome (moveAndStep d b a s) := by
    simp only [List.mem_cons, List.not_mem_nil, or_false] at hi
    rcases hi with rfl | rfl <;> exact ⟨_, rfl⟩
  obtain ⟨u, hu, rfl⟩ := moveAndStep_writesOnlyB (outcome_next.mp (hd ▸ hexec))
  obtain ⟨hreg, hsp, hpc, hmem⟩ := hu.destination
  refine ⟨fun r hi hj hr => ?_, hsp, hpc, hu.ex, hu.ia, hu.iq, hu.fq, hu.skipping, hu.surroundings, hmem⟩
  rw [State.reg_setReg_other _ _ hj, State.reg_setReg_other _ _ hi, hreg r hr]

/-- Settles O51: every basic instruction is one of five shapes, and each of them completes in a roomy state. -/
theorem basicOperationsNeverFault : Obligations.BasicOperationsNeverFault := by
  intro i s hbasic hroomy
  cases i with
  | add | sub | mul | mli | div | dvi | shr | asr | shl | adx | sbx =>
    exact outcome_next_of_completes (combineWithEx_completes hroomy)
  | mod | mdi | and | bor | xor => exact outcome_next_of_completes (combine_completes hroomy)
  | set => exact outcome_next_of_completes (move_completes hroomy)
  | sti | std => exact outcome_next_of_completes (moveAndStep_completes hroomy)
  | ifb | ifc | ife | ifn | ifg | ifa | ifl | ifu => exact outcome_next_of_completes (conditional_completes hroomy)
  | jsr | int | iag | ias | rfi | iaq | hwn | hwq | hwi => exact absurd rfl hbasic

/-- Settles O60: each law is read off the equations of its result functions; quotient and remainder are those of the natural
numbers. -/
theorem arithmeticLawsOfTheAlu : Obligations.ArithmeticLawsOfTheAlu := by
  intro bv av e
  refine ⟨?sum, ?difference, ?product, ?lowHalf, fun hdivisor => ⟨?quotient, ?remainder⟩⟩
  case sum =>
    rw [addResult_eq]
    split <;> bv_omega
  case difference =>
    rw [subResult_eq]
    split
    · rw [if_pos rfl]
      bv_omega
    · rw [if_neg (show (0x0000 : Word) ≠ 0xffff by decide)]
      bv_omega
  case product =>
    have hhigh : bv.toNat * av.toNat / 65536 < 65536 := by
      rw [Nat.div_lt_iff_lt_mul (by decide)]
      exact Nat.mul_lt_mul'' bv.isLt av.isLt
    rw [mulResult_eq, BitVec.toNat_mul, BitVec.toNat_ofNat, Nat.mod_eq_of_lt hhigh]
    exact Nat.div_add_mod' _ _
  case lowHalf => simp [mliResult_eq, mulResult_eq, BitVec.ofInt_mul]
  case quotient =>
    simp only [divResult_eq, modResult_eq, if_neg hdivisor, BitVec.toNat_udiv, BitVec.toNat_umod]
    exact Nat.div_add_mod' _ _
  case remainder =>
    rw [modResult_eq, if_neg hdivisor, BitVec.toNat_umod]
    exact Nat.mod_lt _ (by bv_omega)

end Sys2Proof.Machine

/-! SUPPORT. The conditionals (43_conditional.md): each condition in the spelling of the statement about it, what a conditional answers
with quiet device threads, and its frame for every schedule. -/

namespace Sys2Proof.Machine

/-! ## The conditions -/

theorem ifbHolds_iff (bv av : Word) : ifbHolds bv av = true ↔ bv &&& av ≠ 0 := bne_iff_ne

theorem ifcHolds_iff (bv av : Word) : ifcHolds bv av = true ↔ bv &&& av = 0 := beq_iff_eq

theorem ifeHolds_iff (bv av : Word) : ifeHolds bv av = true ↔ bv = av := beq_iff_eq

theorem ifnHolds_iff (bv av : Word) : ifnHolds bv av = true ↔ bv ≠ av := bne_iff_ne

theorem ifgHolds_iff (bv av : Word) : ifgHolds bv av = true ↔ av.toNat < bv.toNat := decide_eq_true_iff

theorem ifaHolds_iff (bv av : Word) : ifaHolds bv av = true ↔ av.toInt < bv.toInt := by
  rw [ifaHolds, sint_eq_toInt, sint_eq_toInt, decide_eq_true_iff]

theorem iflHolds_iff (bv av : Word) : iflHolds bv av = true ↔ bv.toNat < av.toNat := decide_eq_true_iff

theorem ifuHolds_iff (bv av : Word) : ifuHolds bv av = true ↔ bv.toInt < av.toInt := by
  rw [ifuHolds, sint_eq_toInt, sint_eq_toInt, decide_eq_true_iff]

/-! ## What a conditional answers -/

/-- A conditional with quiet device threads, its condition named by `hP`. -/
theorem conditional_next {cond : Word → Word → Bool} {P : Prop} [Decidable P] {b a : Operand} {s : State} (hq : s.quiet)
    (hP : cond (bValue b a s) (aValue a s) = true ↔ P) :
    outcome (conditional cond b a s) = .next (if P then (bSide b a s).2 else { (bSide b a s).2 with skipping := true }) := by
  rw [conditional_quiet hq, outcome]
  simp only [hP]

/-- Whatever the condition and the schedule, outside memory, queue and schedule a conditional moves `sp` by its operands and touches
`skipping` alone (43_conditional.md R190). -/
theorem conditional_moves_only_sp_and_skipping {cond : Word → Word → Bool} {b a : Operand} {s t : State}
    (h : conditional cond b a s = .ok t) :
    t = { s with sp := stackMoved b a s, skipping := t.skipping }.withBus t ∧ (t.skipping = s.skipping ∨ t.skipping = true) := by
  obtain ⟨⟨bv, av, ht⟩, -⟩ := conditional_spec h
  rw [bSide_eq_stackMoved] at ht
  split at ht
  · exact ⟨by rw [ht], .inl (by rw [ht])⟩
  · exact ⟨by rw [ht], .inr (by rw [ht])⟩

/-! ## The obligations -/

/-- Settles O34: the eight conditionals are one shape, told apart by what their condition says of the two values. -/
theorem conditionalsSetSkippingOnFailure : Obligations.ConditionalsSetSkippingOnFailure :=
  fun _ _ _ hq =>
    ⟨conditional_next hq (ifbHolds_iff _ _), conditional_next hq (ifcHolds_iff _ _), conditional_next hq (ifeHolds_iff _ _),
      conditional_next hq (ifnHolds_iff _ _), conditional_next hq (ifgHolds_iff _ _), conditional_next hq (ifaHolds_iff _ _),
      conditional_next hq (iflHolds_iff _ _), conditional_next hq (ifuHolds_iff _ _)⟩

/-- Settles O47: the frame does not depend on the condition, and the reads of the operands store nothing. -/
theorem conditionalsFrame : Obligations.ConditionalsFrame := by
  intro b a i s t hi hexec
  obtain ⟨cond, hcond⟩ : ∃ cond, exec i s = outcome (conditional cond b a s) := by
    simp only [List.mem_cons, List.not_mem_nil, or_false] at hi
    rcases hi with rfl | rfl | rfl | rfl | rfl | rfl | rfl | rfl <;> exact ⟨_, rfl⟩
  have hok : conditional cond b a s = .ok t := outcome_next.mp (hcond ▸ hexec)
  obtain ⟨ht, hskipping⟩ := conditional_moves_only_sp_and_skipping hok
  have heffect : MemEffect [] s t := (conditional_spec hok).2
  have hsurroundings : surroundingsKept s t := ⟨by rw [ht], by rw [ht], by rw [ht], by rw [ht], heffect.turns⟩
  exact ⟨by rw [ht], by rw [ht], by rw [ht], by rw [ht], by rw [ht], by rw [ht], by rw [ht], hskipping, hsurroundings, heffect.kept⟩

end Sys2Proof.Machine

/-! SUPPORT. The special operations (44_special.md, 60_exceptions.md R252, R262 to R264): what each answers with quiet device threads, and
what each can do and what it leaves alone for every schedule. -/

namespace Sys2Proof.Machine

/-! ## The operand's access -/

@[simp] theorem aSide_iq (a : Operand) (s : State) : (aSide a s).2.iq = s.iq := by rw [aSide_moves_only_sp]

@[simp] theorem aSide_fq (a : Operand) (s : State) : (aSide a s).2.fq = s.fq := by rw [aSide_moves_only_sp]

@[simp] theorem aSide_queue (a : Operand) (s : State) : (aSide a s).2.queue = s.queue := by rw [aSide_moves_only_sp]

@[simp] theorem aSide_devices (a : Operand) (s : State) : (aSide a s).2.devices = s.devices := by rw [aSide_moves_only_sp]

@[simp] theorem aSide_status (a : Operand) (s : State) : (aSide a s).2.status = s.status := by rw [aSide_moves_only_sp]

@[simp] theorem aSide_deviceReplies (a : Operand) (s : State) : (aSide a s).2.deviceReplies = s.deviceReplies := by
  rw [aSide_moves_only_sp]

/-- With the device threads done, the write of a special operation's operand is the write alone. -/
theorem writeA_next {a : Operand} {v : Word} {s : State} (hq : s.quiet) :
    outcome (writeA a v s) = .next (putPlace (aSide a s).1 v (aSide a s).2) :=
  congrArg outcome (writeHandle_quiet hq)

/-- Whatever device threads do, the read of a special operation's operand moves `sp` at most. -/
theorem readA_moves_only_sp {a : Operand} {v : Word} {s s' : State} (h : readA a s = .ok (v, s')) :
    s' = { s with sp := stackMovedByA a s }.withBus s' ∧ MemEffect [] s s' := by
  obtain ⟨hf, _, he⟩ := readA_spec h
  rw [aSide_eq_stackMovedByA] at hf
  exact ⟨hf, he⟩

/-- As a destination an operand names the same register as `a` and as `b`. -/
theorem putControl_aSide_eq_bSide (a : Operand) (v : Word) (s u : State) :
    putControl (aSide a s).1 v u = putControl (bSide a a s).1 v u := by
  cases a <;> rfl

/-! ## Quiet device threads: interrupt entry and return -/

theorem sub_one_sub_one (x : Word) : x - 1 - 1 = x - 2 := by bv_omega

theorem deliver_quiet {m : Word} {s : State} (h : s.quiet) : deliver m s = .ok (delivered m s) := by
  unfold deliver delivered
  split
  · rfl
  · have hpc := pushWord_quiet (v := s.pc) (s := { s with iq := true }) h
    have ha := pushWord_quiet (v := s.reg .a)
      (s := { s with iq := true, sp := s.sp - 1, mem := s.mem.setWord (s.sp - 1) s.pc }) h
    have hreg : State.reg { s with iq := true, sp := s.sp - 1, mem := s.mem.setWord (s.sp - 1) s.pc } .a = s.reg .a := rfl
    simp only [hpc, hreg, ha, sub_one_sub_one]
    rfl

theorem returnFromInterrupt_quiet {s : State} (h : s.quiet) :
    returnFromInterrupt s = .ok { s with
      iq := false, regs := s.regs.set .a (s.mem.word s.sp), pc := s.mem.word (s.sp + 1), sp := s.sp + 2 } := by
  have ha := popWord_quiet (s := { s with iq := false }) h
  have hpc := popWord_quiet (s := { s with iq := false, sp := s.sp + 1, regs := s.regs.set .a (s.mem.word s.sp) }) h
  have hsp : s.sp + 1 + 1 = s.sp + 2 := BitVec.add_assoc _ _ _
  simp only [returnFromInterrupt, ha, State.setReg, hpc, hsp]

/-! ## Quiet device threads: the hardware bus -/

theorem lowHalf_eq (v : BitVec 32) : lowHalf v = BitVec.ofNat 16 (v.toNat % 65536) := by
  apply BitVec.eq_of_toNat_eq
  simp [lowHalf]

theorem highHalf_eq (v : BitVec 32) : highHalf v = BitVec.ofNat 16 (v.toNat / 65536) := by
  apply BitVec.eq_of_toNat_eq
  simp [highHalf, Nat.shiftRight_eq_div_pow]

/-- An index not below `N_dev` names no device (60_exceptions.md R244). -/
theorem State.device_of_length_le {s : State} {index : Word} (h : s.devices.length ≤ index.toNat) : s.device index = none :=
  List.getElem?_eq_none h

theorem execHwq_of_device {a : Operand} {s : State} {d : Device} (hq : s.quiet) (hd : s.device (aValue a s) = some d) :
    execHwq a s = .next (loadIdentity d (aSide a s).2) := by
  have hd' : (aSide a s).2.device (aValue a s) = some d := by rw [State.device, aSide_devices]; exact hd
  simp only [execHwq, readA_quiet hq, hd', outcome]

theorem execHwq_of_no_device {a : Operand} {s : State} (hq : s.quiet) (hd : s.device (aValue a s) = none) :
    execHwq a s = .fault (.noSuchDevice (aValue a s)) := by
  have hd' : (aSide a s).2.device (aValue a s) = none := by rw [State.device, aSide_devices]; exact hd
  simp only [execHwq, readA_quiet hq, hd', outcome]

theorem execHwi_of_device {a : Operand} {s : State} {d : Device} (hq : s.quiet) (hd : s.device (aValue a s) = some d) :
    execHwi a s = outcome (deviceInterrupt (aValue a s) (aSide a s).2) := by
  have hd' : (aSide a s).2.device (aValue a s) = some d := by rw [State.device, aSide_devices]; exact hd
  simp only [execHwi, readA_quiet hq, hd']

theorem execHwi_of_no_device {a : Operand} {s : State} (hq : s.quiet) (hd : s.device (aValue a s) = none) :
    execHwi a s = .fault (.noSuchDevice (aValue a s)) := by
  have hd' : (aSide a s).2.device (aValue a s) = none := by rw [State.device, aSide_devices]; exact hd
  simp only [execHwi, readA_quiet hq, hd', outcome]

/-- A handler that returns carries out its acts, its reply being taken (60_exceptions.md R264). -/
theorem deviceInterrupt_of_returns {index : Word} {s : State} {acts : List DeviceAction}
    (h : nextReply s.deviceReplies = .returns acts) :
    deviceInterrupt index s = deviceActions acts { s with deviceReplies := s.deviceReplies.tail } := by
  rw [deviceInterrupt, h]

theorem deviceInterrupt_of_neverReturns {index : Word} {s : State} (h : nextReply s.deviceReplies = .neverReturns) :
    deviceInterrupt index s = .error (.stuckInDevice index) := by
  rw [deviceInterrupt, h]

/-- HWI on a device whose handler returns is the handler's acts, after the operand's access. -/
theorem execHwi_of_returns {a : Operand} {s : State} {d : Device} {acts : List DeviceAction} (hq : s.quiet)
    (hd : s.device (aValue a s) = some d) (h : nextReply s.deviceReplies = .returns acts) :
    execHwi a s = outcome (deviceActions acts { (aSide a s).2 with deviceReplies := s.deviceReplies.tail }) := by
  rw [execHwi_of_device hq hd, deviceInterrupt_of_returns (by rw [aSide_deviceReplies]; exact h), aSide_deviceReplies]

/-- A device with no reply to come does nothing, and there is no reply to take (assumption log 6). -/
theorem aSide_without_replies {a : Operand} {s : State} (h : s.deviceReplies = .ended) :
    { (aSide a s).2 with deviceReplies := s.deviceReplies.tail } = (aSide a s).2 := by
  rw [h, aSide_moves_only_sp, h]
  rfl

/-! ## Every schedule: what each instruction can do -/

/-- Device threads change nothing of what surrounds the core but the schedule and the queue. -/
theorem MemEffect.surroundingsKept {stored : List Word} {s t : State} (h : MemEffect stored s t)
    (ht : t = { t with
      status := s.status, devices := s.devices, deviceReplies := s.deviceReplies, stopRequests := s.stopRequests }) :
    surroundingsKept s t :=
  ⟨by rw [ht], by rw [ht], by rw [ht], by rw [ht], h.turns⟩

/-- All an IAG or HWN can do: the write of its destination is the only one, and its access moves `sp` at most. -/
theorem writeA_frame {a : Operand} {v : Word} {s t : State} (h : writeA a v s = .ok t) :
    (∀ r, a ≠ .reg r → t.reg r = s.reg r) ∧ (a ≠ .ex → t.ex = s.ex) ∧ (a ≠ .pc → t.pc = s.pc) ∧
    (a ≠ .sp → t.sp = stackMovedByA a s) ∧ t.ia = s.ia ∧ t.iq = s.iq ∧ t.fq = s.fq ∧ t.skipping = s.skipping ∧
    surroundingsKept s t ∧ memoryKeptBut (storedByA a s) s t := by
  have hspec : t = (putControl (aSide a s).1 v (aSide a s).2).withBus t ∧ MemEffect (storedByA a s) s t := writeHandle_spec h
  obtain ⟨ht, he⟩ := hspec
  rw [putControl_aSide_eq_bSide, aSide_eq_stackMovedByA] at ht
  obtain ⟨hreg, hsp, hpc, hex⟩ := putControl_bSide_kept a a v s { s with sp := stackMovedByA a s }
  have hrest : t = { s with regs := t.regs, pc := t.pc, sp := t.sp, ex := t.ex }.withBus t := by
    rw [ht, putControl_writes_only]
  exact ⟨fun r hr => (congrArg (State.reg · r) ht).trans (hreg r hr), fun ha => (congrArg State.ex ht).trans (hex ha),
    fun ha => (congrArg State.pc ht).trans (hpc ha), fun ha => (congrArg State.sp ht).trans (hsp ha),
    by rw [hrest], by rw [hrest], by rw [hrest], by rw [hrest],
    he.surroundingsKept (by rw [hrest]), he.kept⟩

/-- All a JSR can do: the operand is read, `pc` pushed, and `pc` written. -/
theorem execJsr_spec {a : Operand} {s t : State} (h : execJsr a s = .next t) :
    t = { s with sp := stackMovedByA a s - 1, pc := t.pc }.withBus t ∧ MemEffect [stackMovedByA a s - 1] s t := by
  have h := outcome_next.mp h
  split at h
  · cases h
  · rename_i av s1 hread
    split at h
    · cases h
    · rename_i s2 hpush
      cases h
      obtain ⟨hs1, he1⟩ := readA_moves_only_sp hread
      obtain ⟨hs2, -, he2⟩ := pushWord_spec hpush
      have hsp : s1.sp = stackMovedByA a s := by rw [hs1]
      rw [hsp] at hs2 he2
      exact ⟨by rw [hs2, hs1], (he1.trans he2).congr rfl rfl rfl rfl rfl rfl⟩

theorem execIas_spec {a : Operand} {s t : State} (h : execIas a s = .next t) :
    t = { s with sp := stackMovedByA a s, ia := t.ia }.withBus t ∧ MemEffect [] s t := by
  have h := outcome_next.mp h
  split at h
  · cases h
  · rename_i av s1 hread
    cases h
    obtain ⟨hs1, he⟩ := readA_moves_only_sp hread
    exact ⟨by rw [hs1], he.congr rfl rfl rfl rfl rfl rfl⟩

theorem execIaq_spec {a : Operand} {s t : State} (h : execIaq a s = .next t) :
    t = { s with sp := stackMovedByA a s, fq := t.fq }.withBus t ∧ MemEffect [] s t := by
  have h := outcome_next.mp h
  split at h
  · cases h
  · rename_i av s1 hread
    cases h
    obtain ⟨hs1, he⟩ := readA_moves_only_sp hread
    exact ⟨by rw [hs1], he.congr rfl rfl rfl rfl rfl rfl⟩

theorem loadIdentity_writes_only_regs (d : Device) (s : State) :
    loadIdentity d s = { s with regs := (loadIdentity d s).regs } := rfl

/-- HWQ leaves Z, I and J alone (44_special.md R218). -/
theorem loadIdentity_keeps (d : Device) (s : State) :
    (loadIdentity d s).reg .z = s.reg .z ∧ (loadIdentity d s).reg .i = s.reg .i ∧ (loadIdentity d s).reg .j = s.reg .j :=
  ⟨rfl, rfl, rfl⟩

/-- All an HWQ can do: the operand is read, and a device's identity loaded. -/
theorem execHwq_spec {a : Operand} {s t : State} (h : execHwq a s = .next t) :
    t = { s with sp := stackMovedByA a s, regs := t.regs }.withBus t ∧
    (t.reg .z = s.reg .z ∧ t.reg .i = s.reg .i ∧ t.reg .j = s.reg .j) ∧ MemEffect [] s t := by
  have h := outcome_next.mp h
  split at h
  · cases h
  · rename_i av s1 hread
    obtain ⟨hs1, he⟩ := readA_moves_only_sp hread
    split at h
    · cases h
    · rename_i d _
      cases h
      refine ⟨?_, ?_, he.congr rfl rfl rfl rfl rfl rfl⟩
      · rw [loadIdentity_writes_only_regs, hs1]
      · rw [hs1]
        exact loadIdentity_keeps d _

/-- All an HWI can do: the operand is read, and then the device acts. -/
theorem execHwi_spec {a : Operand} {s t : State} (h : execHwi a s = .next t) :
    ∃ s1, s1 = { s with sp := stackMovedByA a s }.withBus s1 ∧ MemEffect [] s s1 ∧ DeviceEffect s1 t := by
  have h := outcome_next.mp h
  split at h
  · cases h
  · rename_i av s1 hread
    obtain ⟨hs1, he⟩ := readA_moves_only_sp hread
    split at h
    · cases h
    · exact ⟨s1, hs1, he, deviceInterrupt_spec h⟩

/-! ## Every schedule: INT -/

/-- Does an INT enter a handler: it is delivered at once, and interrupts are not disabled (44_special.md R212)? -/
abbrev State.intEnters (s : State) : Prop := ¬ (s.fq = true ∧ s.iq = true) ∧ s.ia ≠ 0

/-- What an operation may do to memory, queue and schedule when it may enqueue a message of its own. -/
structure QueueingEffect (stored : List Word) (s t : State) : Prop where
  schedule : ∃ n, t.schedule = s.schedule.drop n
  queue : ∃ ms, t.queue = s.queue ++ ms
  kept : memoryKeptBut stored s t

theorem MemEffect.queueing {stored : List Word} {s t : State} (h : MemEffect stored s t) : QueueingEffect stored s t :=
  ⟨h.schedule, h.queue, h.kept⟩

theorem QueueingEffect.enqueue {stored : List Word} {s t : State} (h : QueueingEffect stored s t) (m : Word) :
    QueueingEffect stored s { t with queue := t.queue ++ [m] } where
  schedule := h.schedule
  queue := by
    obtain ⟨ms, hms⟩ := h.queue
    exact ⟨ms ++ [m], by simp only [hms, List.append_assoc]⟩
  kept := h.kept

/-- What an INT does once its operand is read. -/
theorem execInt_spec {a : Operand} {s t : State} (h : execInt a s = .next t) :
    ∃ m s1, readA a s = .ok (m, s1) ∧
      ((s.fq = true ∧ s.iq = true ∧ ∃ s2, busTurn s1 = .ok s2 ∧ t = { s2 with queue := s2.queue ++ [m] }) ∨
        (¬ (s.fq = true ∧ s.iq = true) ∧ deliver m s1 = .ok t)) := by
  have h := outcome_next.mp h
  split at h
  · cases h
  · rename_i m s1 hread
    refine ⟨m, s1, hread, ?_⟩
    obtain ⟨hs1, -⟩ := readA_moves_only_sp hread
    have hflags : (s1.fq && s1.iq) = true ↔ s.fq = true ∧ s.iq = true := by rw [hs1, Bool.and_eq_true]
    split at h
    · rename_i hboth
      obtain ⟨hfq, hiq⟩ := hflags.mp hboth
      split at h
      · cases h
      · rename_i s2 hturn
        obtain ⟨-, rfl⟩ := enqueue_spec h
        exact .inl ⟨hfq, hiq, s2, hturn, rfl⟩
    · rename_i hnot
      exact .inr ⟨fun hboth => hnot (hflags.mpr hboth), h⟩

theorem execInt_of_enters {a : Operand} {s t : State} (h : execInt a s = .next t) (henters : s.intEnters) :
    (∃ m, t = { s with
      iq := true, sp := stackMovedByA a s - 2, regs := s.regs.set .a m, pc := s.ia }.withBus t) ∧
    MemEffect [stackMovedByA a s - 1, stackMovedByA a s - 2] s t := by
  obtain ⟨hflags, hia⟩ := henters
  obtain ⟨m, s1, hread, ⟨hfq, hiq, -⟩ | ⟨-, hdeliver⟩⟩ := execInt_spec h
  · exact absurd ⟨hfq, hiq⟩ hflags
  · obtain ⟨hs1, he1⟩ := readA_moves_only_sp hread
    have hia1 : s1.ia = s.ia := by rw [hs1]
    have hsp1 : s1.sp = stackMovedByA a s := by rw [hs1]
    rcases deliver_spec hdeliver with ⟨hzero, -⟩ | ⟨-, ht, -, he2⟩
    · exact absurd (hia1.symm.trans hzero) hia
    · rw [hsp1] at he2
      exact ⟨⟨m, by rw [ht, hs1]⟩, he1.trans he2⟩

theorem execInt_of_not_enters {a : Operand} {s t : State} (h : execInt a s = .next t) (hstays : ¬ s.intEnters) :
    t = { s with sp := stackMovedByA a s }.withBus t ∧ QueueingEffect [] s t := by
  obtain ⟨m, s1, hread, ⟨-, -, s2, hturn, rfl⟩ | ⟨hflags, hdeliver⟩⟩ := execInt_spec h
  · obtain ⟨hs1, he1⟩ := readA_moves_only_sp hread
    obtain ⟨hs2, he2⟩ := busTurn_spec hturn
    exact ⟨by rw [hs2, hs1], (he1.trans he2).queueing.enqueue m⟩
  · obtain ⟨hs1, he1⟩ := readA_moves_only_sp hread
    have hia1 : s1.ia = s.ia := by rw [hs1]
    rcases deliver_spec hdeliver with ⟨-, rfl⟩ | ⟨hia, -⟩
    · exact ⟨hs1, he1.queueing⟩
    · exact absurd ⟨hflags, hia1 ▸ hia⟩ hstays

/-! ## The obligations -/

/-- Settles O35: the operand's access leaves `pc` alone, so the Word pushed is the address after the JSR's words. -/
theorem jsrPushesReturnAddress : Obligations.JsrPushesReturnAddress := by
  intro a s hq
  simp only [exec, execJsr, readA_quiet hq, pushWord_quiet (quiet_aSide hq), outcome, aSide_pc]

/-- Settles O36: the operand's access leaves the flags and the queue alone, so the state before INT decides between delivery and
queuing. -/
theorem intEnqueuesOrDelivers : Obligations.IntEnqueuesOrDelivers := by
  intro a s hq
  have hread : (aSide a s).2.quiet := quiet_aSide hq
  refine ⟨fun hflags => ?delivered, fun hfq hiq hroom => ?queued, fun hfq hiq hfull => ?overflow⟩
  case delivered =>
    have hnot : ¬ (s.fq && s.iq) = true := by rwa [Bool.and_eq_true]
    simp only [exec, execInt, readA_quiet hq, aSide_fq, aSide_iq, if_neg hnot, deliver_quiet hread, outcome]
  case queued =>
    have hroom' : (aSide a s).2.queue.length < Config.queueCapacity := by rwa [aSide_queue]
    simp [exec, execInt, readA_quiet hq, hfq, hiq, busTurn_quiet hread, enqueue_room hroom', outcome]
  case overflow =>
    have hfull' : Config.queueCapacity ≤ (aSide a s).2.queue.length := by rw [aSide_queue]; exact hfull.ge
    simp [exec, execInt, readA_quiet hq, hfq, hiq, busTurn_quiet hread, enqueue_full hfull', outcome]

/-- Settles O37: IAG is the write of its operand, IAS the read of it. -/
theorem iagAndIasMoveTheInterruptAddress : Obligations.IagAndIasMoveTheInterruptAddress := by
  intro a s hq
  exact ⟨writeA_next hq, by simp only [exec, execIas, readA_quiet hq, outcome]⟩

/-- Settles O38: the two pops read the Words at `sp` and at `sp + 1`, and the operand plays no part. -/
theorem rfiPopsAThenPc : Obligations.RfiPopsAThenPc :=
  fun _ _ hq => congrArg outcome (returnFromInterrupt_quiet hq)

/-- Settles O39: IAQ tests the value it reads against 0. -/
theorem iaqSetsForceQueuing : Obligations.IaqSetsForceQueuing := by
  intro a s hq
  have hne : (aValue a s != 0) = decide (aValue a s ≠ 0) := Bool.eq_iff_iff.mpr (by simp)
  simp only [exec, execIaq, readA_quiet hq, outcome, hne]

/-- Settles O40: a device count within the spec's bound is a Word. -/
theorem hwnWritesDeviceCount : Obligations.HwnWritesDeviceCount := by
  intro a s hq hbound
  have hcount : s.deviceCount.toNat = s.devices.length := by
    rw [State.deviceCount, BitVec.toNat_ofNat]
    omega
  exact ⟨s.deviceCount, hcount, writeA_next hq⟩

/-- Settles O41: the index names a device or none, and the halves of a 32-bit identity are its remainder and quotient by 65536. -/
theorem hwqSplitsIdentity : Obligations.HwqSplitsIdentity := by
  intro a s hq
  refine ⟨fun d hd => ?_, fun hindex => execHwq_of_no_device hq (State.device_of_length_le hindex)⟩
  simp only [← lowHalf_eq, ← highHalf_eq]
  exact execHwq_of_device hq hd

/-- Settles O42: below `N_dev` the coming reply decides; its acts have room for their messages or meet a full queue. -/
theorem hwiRunsTheHandlerOrFaults : Obligations.HwiRunsTheHandlerOrFaults := by
  intro a s hq
  refine ⟨fun hindex => execHwi_of_no_device hq (State.device_of_length_le hindex), fun hindex => ?_⟩
  have hd : s.device (aValue a s) = some s.devices[(aValue a s).toNat] := List.getElem?_eq_getElem hindex
  refine ⟨fun hended => ?noReply, fun hreply => ?emptyReply, fun acts hreply hroom => ?fitting,
    fun acts m more hreply hfull => ?overflow, fun hreply => ?stuck⟩
  case noReply =>
    have hreply : nextReply s.deviceReplies = .returns [] := by rw [hended]; rfl
    rw [← aSide_without_replies hended]
    exact execHwi_of_returns hq hd hreply
  case emptyReply => exact execHwi_of_returns hq hd hreply
  case fitting =>
    obtain ⟨t, ht⟩ := deviceActions_completes (acts := acts)
      (s := { (aSide a s).2 with deviceReplies := s.deviceReplies.tail }) (by rwa [aSide_queue])
    obtain ⟨heffect, -⟩ := deviceActions_spec ht
    exact ⟨t, (execHwi_of_returns hq hd hreply).trans (congrArg outcome ht), ht, heffect.iq.trans (aSide_iq a s),
      heffect.fq.trans (aSide_fq a s), heffect.devices.trans (aSide_devices a s), heffect.status.trans (aSide_status a s)⟩
  case overflow =>
    have hends := deviceActions_overflow (acts := acts) (m := m) (more := more)
      (s := { (aSide a s).2 with deviceReplies := s.deviceReplies.tail }) (by rwa [aSide_queue])
    exact (execHwi_of_returns hq hd hreply).trans (congrArg outcome hends)
  case stuck =>
    have hstuck : deviceInterrupt (aValue a s) (aSide a s).2 = .error (.stuckInDevice (aValue a s)) :=
      deviceInterrupt_of_neverReturns (by rwa [aSide_deviceReplies])
    exact (execHwi_of_device hq hd).trans (congrArg outcome hstuck)

/-- Settles O48: JSR and RFI each are one shape; INT either enters a handler or leaves all but `sp` and the queue alone. -/
theorem jumpAndInterruptFrames : Obligations.JumpAndInterruptFrames := by
  intro a s t
  refine ⟨fun hexec => ?jsr, fun hexec => ?int, fun hexec => ?rfi⟩
  case jsr =>
    obtain ⟨ht, he⟩ := execJsr_spec hexec
    exact ⟨by rw [ht], by rw [ht], by rw [ht], by rw [ht], by rw [ht], by rw [ht], by rw [ht],
      he.surroundingsKept (by rw [ht]), he.kept⟩
  case int =>
    intro enters
    by_cases henters : enters
    · obtain ⟨⟨m, ht⟩, he⟩ := execInt_of_enters hexec henters
      simp only [henters, if_true]
      have hreg : ∀ r, r ≠ .a → t.reg r = s.reg r := fun r hr => by
        rw [ht]
        exact Regs.get_set_other s.regs m hr
      exact ⟨fun r hr => hreg r (hr.resolve_right (not_not_intro trivial)), by rw [ht], by rw [ht], by rw [ht], by rw [ht],
        by rw [ht], by rw [ht], by rw [ht], by rw [ht], by rw [ht], by rw [ht], by rw [ht], he.schedule, he.queue, he.kept⟩
    · obtain ⟨ht, he⟩ := execInt_of_not_enters hexec henters
      simp only [henters, if_false]
      exact ⟨fun r _ => by rw [ht]; rfl, by rw [ht], by rw [ht], by rw [ht], by rw [ht],
        by rw [ht], by rw [ht], by rw [ht], by rw [ht], by rw [ht], by rw [ht], by rw [ht], he.schedule, he.queue, he.kept⟩
  case rfi =>
    obtain ⟨⟨v, target, ht⟩, he⟩ := returnFromInterrupt_spec (outcome_next.mp hexec)
    have hreg : ∀ r, r ≠ .a → t.reg r = s.reg r := fun r hr => by
      rw [ht]
      exact Regs.get_set_other s.regs v hr
    exact ⟨hreg, by rw [ht], by rw [ht], by rw [ht], by rw [ht], by rw [ht], by rw [ht],
      he.surroundingsKept (by rw [ht]), he.kept⟩

/-- Settles O49: IAG and HWN write their operand; the others read theirs and store nothing. -/
theorem registerTransferFrames : Obligations.RegisterTransferFrames := by
  intro a s t
  refine ⟨fun i hi hexec => ?iagHwn, fun hexec => ?ias, fun hexec => ?iaq, fun hexec => ?hwq⟩
  case iagHwn =>
    obtain ⟨v, hv⟩ : ∃ v, exec i s = outcome (writeA a v s) := by
      simp only [List.mem_cons, List.not_mem_nil, or_false] at hi
      rcases hi with rfl | rfl <;> exact ⟨_, rfl⟩
    exact writeA_frame (outcome_next.mp (hv ▸ hexec))
  case ias =>
    obtain ⟨ht, he⟩ := execIas_spec hexec
    exact ⟨by rw [ht], by rw [ht], by rw [ht], by rw [ht], by rw [ht], by rw [ht], by rw [ht],
      he.surroundingsKept (by rw [ht]), he.kept⟩
  case iaq =>
    obtain ⟨ht, he⟩ := execIaq_spec hexec
    exact ⟨by rw [ht], by rw [ht], by rw [ht], by rw [ht], by rw [ht], by rw [ht], by rw [ht],
      he.surroundingsKept (by rw [ht]), he.kept⟩
  case hwq =>
    obtain ⟨ht, ⟨hz, hi, hj⟩, he⟩ := execHwq_spec hexec
    exact ⟨hz, hi, hj, by rw [ht], by rw [ht], by rw [ht], by rw [ht], by rw [ht], by rw [ht], by rw [ht],
      he.surroundingsKept (by rw [ht]), he.kept⟩

/-- Settles O50: the operand's read moves `sp` at most, and no act of a handler reaches these fields but by enqueuing. -/
theorem hwiFrame : Obligations.HwiFrame := by
  intro a s t hexec
  obtain ⟨s1, hs1, hread, hdevice⟩ := execHwi_spec hexec
  obtain ⟨n, hn⟩ := hread.schedule
  obtain ⟨ms, hms⟩ := hread.queue
  obtain ⟨ns, hns⟩ := hdevice.queue
  exact ⟨hdevice.iq.trans (by rw [hs1]), hdevice.fq.trans (by rw [hs1]), hdevice.status.trans (by rw [hs1]),
    hdevice.devices.trans (by rw [hs1]), hdevice.stopRequests.trans (by rw [hs1]), ⟨n, hdevice.schedule.trans hn⟩,
    ⟨ms ++ ns, by rw [hns, hms, List.append_assoc]⟩⟩

end Sys2Proof.Machine

/-! SUPPORT. Memory and queue along a whole step (60_exceptions.md R248, R251, 20_memory.md R60): every part of a cycle adds messages at
the queue's end and keeps the bounds; only a delivery in step 1 takes a message, the head. -/

namespace Sys2Proof.Machine

/-! ## What any part of a cycle keeps -/

/-- What a part of a step that takes no message may do to memory and queue: messages come at the queue's end and never past its
capacity, and the memory stays canonical. -/
structure StorageEffect (s t : State) : Prop where
  queue : ∃ ms, t.queue = s.queue ++ ms
  capacity : s.queue.length ≤ Config.queueCapacity → t.queue.length ≤ Config.queueCapacity
  wf : s.mem.wf = true → t.mem.wf = true

theorem StorageEffect.refl (s : State) : StorageEffect s s :=
  ⟨⟨[], (List.append_nil _).symm⟩, id, id⟩

theorem StorageEffect.trans {s s' s'' : State} (h : StorageEffect s s') (h' : StorageEffect s' s'') : StorageEffect s s'' where
  queue := by
    obtain ⟨ms, hms⟩ := h.queue
    obtain ⟨ns, hns⟩ := h'.queue
    exact ⟨ms ++ ns, by rw [hns, hms, List.append_assoc]⟩
  capacity := h'.capacity ∘ h.capacity
  wf := h'.wf ∘ h.wf

/-- Only the queue and the memory of the states count. -/
theorem StorageEffect.congr {s s' t t' : State} (h : StorageEffect s t) (hq : s'.queue = s.queue) (hm : s'.mem = s.mem)
    (hq' : t'.queue = t.queue) (hm' : t'.mem = t.mem) : StorageEffect s' t' where
  queue := by rw [hq, hq']; exact h.queue
  capacity := by rw [hq, hq']; exact h.capacity
  wf := by rw [hm, hm']; exact h.wf

theorem MemEffect.storage {stored : List Word} {s t : State} (h : MemEffect stored s t) : StorageEffect s t :=
  ⟨h.queue, h.capacity, h.wf⟩

theorem DeviceEffect.storage {s t : State} (h : DeviceEffect s t) : StorageEffect s t :=
  ⟨h.queue, h.capacity, h.wf⟩

theorem enqueue_storage {m : Word} {s t : State} (h : enqueue m s = .ok t) : StorageEffect s t := by
  obtain ⟨hroom, rfl⟩ := enqueue_spec h
  exact ⟨⟨[m], rfl⟩, fun _ => by rw [List.length_append]; exact hroom, id⟩

theorem deliver_storage {m : Word} {s t : State} (h : deliver m s = .ok t) : StorageEffect s t := by
  rcases deliver_spec h with ⟨_, rfl⟩ | ⟨_, _, _, he⟩
  · exact .refl _
  · exact he.storage

/-! ## Any instruction -/

theorem moveAndStep_storage {d : Word} {b a : Operand} {s t : State} (h : moveAndStep d b a s = .ok t) :
    StorageEffect s t := by
  unfold moveAndStep at h
  split at h
  · cases h
  · rename_i u hmove
    cases h
    exact (move_spec hmove).2.storage.congr rfl rfl rfl rfl

theorem execInt_storage {a : Operand} {s t : State} (h : execInt a s = .next t) : StorageEffect s t := by
  have h := outcome_next.mp h
  split at h
  · cases h
  · rename_i m s1 hread
    have hread : StorageEffect s s1 := (readA_spec hread).2.2.storage
    split at h
    · split at h
      · cases h
      · rename_i s2 hturn
        exact (hread.trans (busTurn_spec hturn).2.storage).trans (enqueue_storage h)
    · exact hread.trans (deliver_storage h)

theorem execHwi_storage {a : Operand} {s t : State} (h : execHwi a s = .next t) : StorageEffect s t := by
  obtain ⟨s1, _, hread, hdevice⟩ := execHwi_spec h
  exact hread.storage.trans hdevice.storage

theorem exec_storage {i : Instr} {s t : State} (h : exec i s = .next t) : StorageEffect s t := by
  cases i with
  | add | sub | mul | mli | div | dvi | shr | asr | shl | adx | sbx => exact (combineWithEx_spec (outcome_next.mp h)).2.storage
  | mod | mdi | and | bor | xor => exact (combine_spec (outcome_next.mp h)).2.storage
  | set => exact (move_spec (outcome_next.mp h)).2.storage
  | sti | std => exact moveAndStep_storage (outcome_next.mp h)
  | ifb | ifc | ife | ifn | ifg | ifa | ifl | ifu => exact (conditional_spec (outcome_next.mp h)).2.storage
  | iag | hwn => exact (writeHandle_spec (outcome_next.mp h)).2.storage
  | rfi => exact (returnFromInterrupt_spec (outcome_next.mp h)).2.storage
  | jsr => exact (execJsr_spec h).2.storage
  | ias => exact (execIas_spec h).2.storage
  | iaq => exact (execIaq_spec h).2.storage
  | hwq => exact (execHwq_spec h).2.2.storage
  | int => exact execInt_storage h
  | hwi => exact execHwi_storage h

/-! ## The parts of a cycle -/

/-- All step 1 can do: the access point, and then nothing, or, when neither `skipping` nor `iq` holds it back, the delivery of the
queue's head (60_exceptions.md R251). -/
theorem interruptStep_spec {s t : State} (h : interruptStep s = .ok t) :
    ∃ s1, busTurn s = .ok s1 ∧
      (t = s1 ∨ (s.skipping = false ∧ s.iq = false ∧
        ∃ m rest, s1.queue = m :: rest ∧ deliver m { s1 with queue := rest } = .ok t)) := by
  unfold interruptStep at h
  split at h
  · cases h
  · rename_i s1 hturn
    refine ⟨s1, hturn, ?_⟩
    split at h
    · cases h
      exact .inl rfl
    · rename_i hflags
      obtain ⟨hskip, hiq⟩ : s1.skipping = false ∧ s1.iq = false := by simpa using hflags
      have hframe := (busTurn_spec hturn).1
      rw [hframe] at hskip hiq
      rcases dequeueAndDeliver_spec h with ⟨_, ht⟩ | hdelivers
      · exact .inl ht
      · exact .inr ⟨hskip, hiq, hdelivers⟩

theorem fetch_storage {ws : List Word} {s t : State} (h : fetch s = .ok (ws, t)) : StorageEffect s t := by
  unfold fetch at h
  split at h
  · cases h
  · rename_i w s1 hfirst
    split at h
    · cases h
    · rename_i vs s2 hrest
      cases h
      exact (nextWord_spec hfirst).2.2.storage.trans (nextWords_spec hrest).2.2.storage

theorem executeOrSkip_storage {start : Word} {ws : List Word} {s t : State} (h : executeOrSkip start ws s = .next t) :
    StorageEffect s t := by
  obtain ⟨i, rest, _, ⟨_, rfl⟩ | ⟨_, hexec⟩⟩ := executeOrSkip_spec h
  · exact (StorageEffect.refl s).congr rfl rfl rfl rfl
  · exact exec_storage hexec

theorem endCycle_storage {s t : State} (h : endCycle s = .ok t) : StorageEffect s t := by
  obtain ⟨s1, _, hturn, rfl⟩ := endCycle_spec h
  exact hturn.storage.congr rfl rfl (by rw [(observe_spec s1).1]) (by rw [(observe_spec s1).1])

/-! ## A whole step -/

/-- What a step, or its beginning, may do to memory and queue: it only adds messages, or, neither skipping nor with `iq` set, it takes
the head of the queue as the access point of step 1 left it and only adds messages before and after. -/
inductive QueueStep (s t : State) : Prop where
  | grows (h : StorageEffect s t)
  | takesHead {u : State} {m : Word} {rest : List Word} (hskip : s.skipping = false) (hiq : s.iq = false)
      (hbefore : StorageEffect s u) (hhead : u.queue = m :: rest) (hafter : StorageEffect { u with queue := rest } t)

theorem interruptStep_queueStep {s t : State} (h : interruptStep s = .ok t) : QueueStep s t := by
  obtain ⟨u, hturn, rfl | ⟨hskip, hiq, m, rest, hhead, hdeliver⟩⟩ := interruptStep_spec h
  · exact .grows (busTurn_spec hturn).2.storage
  · exact .takesHead hskip hiq (busTurn_spec hturn).2.storage hhead (deliver_storage hdeliver)

theorem QueueStep.trans {s s' t : State} (h : QueueStep s s') (h' : StorageEffect s' t) : QueueStep s t := by
  cases h with
  | grows h => exact .grows (h.trans h')
  | takesHead hskip hiq hbefore hhead hafter => exact .takesHead hskip hiq hbefore hhead (hafter.trans h')

theorem step_queueStep {s t : State} (h : step s = .next t) : QueueStep s t := by
  obtain ⟨_, s1, ws, s2, s3, hint, hfetch, hexec, hend⟩ := step_spec h
  have hrest : StorageEffect s1 t := ((fetch_storage hfetch).trans (executeOrSkip_storage hexec)).trans (endCycle_storage hend)
  exact (interruptStep_queueStep hint).trans hrest

theorem QueueStep.capacity {s t : State} (h : QueueStep s t) (hs : s.queue.length ≤ Config.queueCapacity) :
    t.queue.length ≤ Config.queueCapacity := by
  cases h with
  | grows h => exact h.capacity hs
  | takesHead hskip hiq hbefore hhead hafter =>
    have hu := hbefore.capacity hs
    rw [hhead] at hu
    exact hafter.capacity (Nat.le_of_succ_le hu)

theorem QueueStep.wf {s t : State} (h : QueueStep s t) (hs : s.mem.wf = true) : t.mem.wf = true := by
  cases h with
  | grows h => exact h.wf hs
  | takesHead hskip hiq hbefore hhead hafter => exact hafter.wf (hbefore.wf hs)

/-! ## The obligations -/

/-- Settles O5: every part of a cycle keeps the memory canonical and the queue within its capacity, and none changes the device set. -/
theorem everyStepKeepsInvariant : Obligations.EveryStepKeepsInvariant := by
  intro s t ⟨hmem, hqueue, hdevices⟩ h
  have hstep := step_queueStep h
  exact ⟨hstep.wf hmem, hstep.capacity hqueue, by rwa [deviceSetNeverChanges s t h]⟩

/-- Settles O54: messages that come before the head is taken and those that come after it both stand at the queue's end. -/
theorem queueIsFifoAndLosesAtMostItsHead : Obligations.QueueIsFifoAndLosesAtMostItsHead := by
  intro s t h
  cases step_queueStep h with
  | grows h =>
    obtain ⟨ms, hms⟩ := h.queue
    exact ⟨ms, .inl hms⟩
  | takesHead hskip hiq hbefore hhead hafter =>
    obtain ⟨ms, hms⟩ := hbefore.queue
    obtain ⟨ns, hns⟩ := hafter.queue
    refine ⟨ms ++ ns, .inr ⟨hskip, hiq, ?_⟩⟩
    rw [hns, ← List.append_assoc, ← hms, hhead]
    rfl

end Sys2Proof.Machine

/-! SUPPORT. Exceptions (60_exceptions.md): the fault of a word that spells no instruction (R242), step 1 and the delivery of a message
(R251, R252, R260), what a device may leave behind in HWI (R264), the observer's stop (R266), and the messages of device threads that
meet a full queue (R243, R265). -/

namespace Sys2Proof.Machine

/-! ## A word that spells no instruction -/

theorem wordsFrom_length (m : Memory) (a : Word) (n : Nat) : (wordsFrom m a n).length = n := by
  induction n generalizing a with
  | zero => rfl
  | succ n ih => rw [wordsFrom, List.length_cons, ih]

theorem decode_error_of_spellsNoInstruction {w : Word} {ws : List Word} (hws : nextWordCount w ≤ ws.length)
    (h : spellsNoInstruction w = true) : ∃ e, decode (w :: ws) = .error e := by
  have hb : bField w < 32 := bField_lt w
  apply (onlyUnsupportedOpcodesAreRejected w ws hws).mpr
  simp only [spellsNoInstruction, Bool.or_eq_true, Bool.and_eq_true, decide_eq_true_eq, beq_iff_eq, List.mem_cons,
    List.not_mem_nil, or_false] at h
  omega

/-- Whether the core is skipping plays no part (R242). -/
theorem executeOrSkip_of_decode_error {start w : Word} {ws : List Word} {e : Reject} {s : State}
    (h : decode (w :: ws) = .error e) : executeOrSkip start (w :: ws) s = .fault (.unsupportedOperation start w) := by
  rw [executeOrSkip, h]
  rfl

/-! ## Step 1 and the delivery, with device threads quiet -/

theorem interruptStep_of_held {s : State} (hq : s.quiet) (h : s.skipping = true ∨ s.iq = true) : interruptStep s = .ok s := by
  simp only [interruptStep, busTurn_quiet hq, Bool.or_eq_true, if_pos h]

theorem interruptStep_of_free {s : State} (hq : s.quiet) (hskip : s.skipping = false) (hiq : s.iq = false) :
    interruptStep s = dequeueAndDeliver s := by
  simp [interruptStep, busTurn_quiet hq, hskip, hiq]

theorem dequeueAndDeliver_of_empty {s : State} (h : s.queue = []) : dequeueAndDeliver s = .ok s := by
  rw [dequeueAndDeliver, h]

theorem dequeueAndDeliver_of_head {s : State} {m : Word} {rest : List Word} (h : s.queue = m :: rest) :
    dequeueAndDeliver s = deliver m { s with queue := rest } := by
  rw [dequeueAndDeliver, h]

theorem sub_one_ne_sub_two (x : Word) : x - 1 ≠ x - 2 := by bv_omega

/-- The two Words that a delivery pushes lie at different addresses, and every other Word is as before. -/
theorem delivered_word {m : Word} {s : State} (hia : s.ia ≠ 0) :
    (delivered m s).mem.word (s.sp - 1) = s.pc ∧ (delivered m s).mem.word (s.sp - 2) = s.reg .a ∧
    ∀ x, x ≠ s.sp - 1 → x ≠ s.sp - 2 → (delivered m s).mem.word x = s.mem.word x := by
  rw [delivered, if_neg hia]
  refine ⟨?_, Memory.word_setWord_same .., fun x hpc ha => ?_⟩
  · rw [Memory.word_setWord_other _ _ (sub_one_ne_sub_two s.sp), Memory.word_setWord_same]
  · rw [Memory.word_setWord_other _ _ ha, Memory.word_setWord_other _ _ hpc]

theorem delivered_of_enabled {m : Word} {s : State} (hia : s.ia ≠ 0) :
    delivered m s = { s with
      iq := true, sp := s.sp - 2, mem := (delivered m s).mem, regs := s.regs.set .a m, pc := s.ia } := by
  simp only [delivered, if_neg hia]

/-! ## What a device may leave behind in HWI -/

theorem deviceActions_append {acts more : List DeviceAction} {s s' : State} (h : deviceActions acts s = .ok s') :
    deviceActions (acts ++ more) s = deviceActions more s' := by
  induction acts generalizing s with
  | nil => cases h; rfl
  | cons act rest ih =>
    simp only [deviceActions, List.cons_append] at h ⊢
    split at h
    · cases h
    · exact ih h

/-- The acts that write a whole ProcessorState (10_state.md R47). -/
def processorStateActs (g : Regs) (pc sp ex ia : Word) (skipping : Bool) : List DeviceAction :=
  [.setReg .a g.a, .setReg .b g.b, .setReg .c g.c, .setReg .x g.x, .setReg .y g.y, .setReg .z g.z, .setReg .i g.i,
    .setReg .j g.j, .setPc pc, .setSp sp, .setEx ex, .setIa ia, .setSkipping skipping]

theorem deviceActions_processorState (g : Regs) (pc sp ex ia : Word) (skipping : Bool) (s : State) :
    deviceActions (processorStateActs g pc sp ex ia skipping) s =
      .ok { s with regs := g, pc := pc, sp := sp, ex := ex, ia := ia, skipping := skipping } := by
  simp only [processorStateActs, deviceActions, deviceAction, State.setReg, Regs.set]

theorem deviceActions_memWrites (writes : List (Word × Word)) (s : State) :
    deviceActions (writes.map fun w => .memWrite w.1 w.2) s =
      .ok { s with mem := writes.foldl (fun m w => m.setWord w.1 w.2) s.mem } := by
  induction writes generalizing s with
  | nil => rfl
  | cons w rest ih => exact ih (s.storeWord w.1 w.2)

theorem deviceActions_interrupts {messages : List Word} {s : State}
    (h : s.queue.length + messages.length ≤ Config.queueCapacity) :
    deviceActions (messages.map .interrupt) s = .ok { s with queue := s.queue ++ messages } := by
  induction messages generalizing s with
  | nil => simp [deviceActions]
  | cons m rest ih =>
    rw [List.length_cons] at h
    simp only [List.map_cons, deviceActions, deviceAction, enqueue_room (show s.queue.length < Config.queueCapacity by omega)]
    rw [ih (by rw [List.length_append, List.length_singleton]; omega)]
    simp only [List.append_assoc, List.singleton_append]

/-- What a device is going to do in HWI plays no part in an operand's access before it. -/
theorem aValue_deviceReplies (a : Operand) (s : State) (replies : Supply DeviceReply) :
    aValue a { s with deviceReplies := replies } = aValue a s := by
  cases a <;> rfl

/-- HWI with a returning handler next is the handler's acts, after the move of `sp` by the operand's access. -/
theorem execHwi_of_next_reply {a : Operand} {s : State} (acts : List DeviceAction) (rest : Supply DeviceReply) (hq : s.quiet)
    (hindex : (aValue a s).toNat < s.devices.length) :
    execHwi a { s with deviceReplies := .item (.returns acts) rest } =
      outcome (deviceActions acts { s with sp := stackMovedByA a s, deviceReplies := rest }) := by
  rw [← aValue_deviceReplies a s (.item (.returns acts) rest)] at hindex
  rw [execHwi_of_returns (s := { s with deviceReplies := .item (.returns acts) rest }) hq (List.getElem?_eq_getElem hindex) rfl,
    aSide_eq_stackMovedByA]
  rfl

/-! ## The run status -/

/-- Step 1 writes `iq` alone of the control part. -/
theorem interruptStep_control_iq {s t : State} (h : interruptStep s = .ok t) : t.control = { s.control with iq := t.iq } := by
  rcases interruptStep_control h with hc | hc
  · rw [State.iq_eq_of_control hc, hc]
    rfl
  · have hiq : t.iq = true := congrArg Control.iq hc
    rw [hc, hiq]

theorem ControlChange.flags_only {i : Instr} {c c' : Control} (h : ControlChange i c c') :
    c' = { c with skipping := c'.skipping, iq := c'.iq } := by
  cases h <;> rfl

/-- Step 6 writes flags alone of the control part. -/
theorem executeOrSkip_control {start : Word} {ws : List Word} {s t : State} (h : executeOrSkip start ws s = .next t) :
    t.control = { s.control with skipping := t.skipping, iq := t.iq } := by
  obtain ⟨i, rest, _, ⟨_, rfl⟩ | ⟨_, hexec⟩⟩ := executeOrSkip_spec h
  · rfl
  · exact (exec_control hexec).flags_only

/-- A running core is still running when the end of the cycle comes, and the observer's requests are untaken. -/
theorem status_before_endCycle {s s1 s2 s3 : State} {start : Word} {ws : List Word} (hint : interruptStep s = .ok s1)
    (hfetch : fetch s1 = .ok (ws, s2)) (hexec : executeOrSkip start ws s2 = .next s3) :
    s3.status = s.status ∧ s3.stopRequests = s.stopRequests := by
  have hcontrol : s3.control = { s.control with skipping := s3.skipping, iq := s3.iq } := by
    rw [executeOrSkip_control hexec, fetch_control hfetch, interruptStep_control_iq hint]
  exact ⟨congrArg Control.status hcontrol, congrArg Control.stopRequests hcontrol⟩

theorem endCycle_status {s t : State} (h : endCycle s = .ok t) :
    t.status = if s.stopRequests.head? = some true then .stopped else s.status := by
  obtain ⟨s1, hturn, _, rfl⟩ := endCycle_spec h
  have hrequests : s1.stopRequests = s.stopRequests := by rw [hturn]
  have hstatus : s1.status = s.status := by rw [hturn]
  rw [(observe_spec s1).2.1, hrequests, hstatus]

theorem step_of_stopped {s : State} (h : s.status = .stopped) : step s = .refused .stopped := by
  rw [step, h]

/-! ## The messages device threads raise -/

theorem raised_append (es more : List BusEvent) : raised (es ++ more) = raised es ++ raised more := by
  induction es with
  | nil => rfl
  | cons e rest ih =>
    cases e with
    | memWrite a v => exact ih
    | interrupt m => exact congrArg (m :: ·) ih

@[simp] theorem raised_map_interrupt (messages : List Word) : raised (messages.map .interrupt) = messages := by
  induction messages with
  | nil => rfl
  | cons m rest ih => exact congrArg (m :: ·) ih

/-- The message of number `n` is raised by an event that `n` messages come before. -/
theorem event_of_raised {es : List BusEvent} {n : Nat} {m : Word} (h : (raised es)[n]? = some m) :
    ∃ before after, es = before ++ .interrupt m :: after ∧ (raised before).length = n := by
  induction es generalizing n with
  | nil => cases h
  | cons e rest ih =>
    cases e with
    | memWrite a v =>
      obtain ⟨before, after, hsplit, hcount⟩ := ih h
      exact ⟨.memWrite a v :: before, after, congrArg _ hsplit, hcount⟩
    | interrupt k =>
      cases n with
      | zero =>
        cases h
        exact ⟨[], rest, rfl, rfl⟩
      | succ n =>
        obtain ⟨before, after, hsplit, hcount⟩ := ih (n := n) h
        exact ⟨.interrupt k :: before, after, congrArg _ hsplit, congrArg (· + 1) hcount⟩

/-- Events end at the message that finds as many before it as fill the queue. -/
theorem busEvents_overflow_of_raised {es : List BusEvent} {n : Nat} {m : Word} {s : State} (h : (raised es)[n]? = some m)
    (hfull : s.queue.length + n = Config.queueCapacity) : busEvents es s = .error (.deviceOverload m) := by
  obtain ⟨before, after, rfl, rfl⟩ := event_of_raised h
  exact busEvents_overflow hfull

/-! ## A turn that overflows the queue -/

/-- In the coming turn of device threads message `m` meets a full queue. -/
def State.overflows (s : State) (m : Word) : Prop :=
  ∃ es more, nextTurn s.schedule = es ++ .interrupt m :: more ∧ s.queue.length + (raised es).length = Config.queueCapacity

section
variable {s : State} {m : Word}

theorem State.overflows.congr {t : State} (h : s.overflows m) (hs : t.schedule = s.schedule) (hq : t.queue = s.queue) :
    t.overflows m := by
  rw [State.overflows, hs, hq]
  exact h

theorem busTurn_of_overflows (h : s.overflows m) : busTurn s = .error (.deviceOverload m) := by
  obtain ⟨es, more, hturn, hfull⟩ := h
  rw [busTurn, hturn]
  exact busEvents_overflow hfull

theorem memRead_of_overflows (h : s.overflows m) (a : Word) : memRead a s = .error (.deviceOverload m) := by
  rw [memRead, busTurn_of_overflows h]

theorem memWrite_of_overflows (h : s.overflows m) (a v : Word) : memWrite a v s = .error (.deviceOverload m) := by
  rw [memWrite, busTurn_of_overflows h]

theorem endCycle_of_overflows (h : s.overflows m) : endCycle s = .error (.deviceOverload m) := by
  rw [endCycle, busTurn_of_overflows h]

theorem step_of_overflows (h : s.overflows m) (hrun : s.status = .running) : step s = .fault (.deviceOverload m) := by
  simp only [step, hrun, cycle, interruptStep, busTurn_of_overflows h]

/-- A read either is an access point, and so the fault, or makes no access at all. -/
theorem readPlace_of_overflows (h : s.overflows m) (p : Place) :
    readPlace p s = .error (.deviceOverload m) ∨ readPlace p s = .ok (placeValue p s, s) := by
  cases p with
  | mem addr => exact .inl (memRead_of_overflows h addr)
  | peek => exact .inl (memRead_of_overflows h s.sp)
  | reg _ | sp | pc | ex | lit _ => exact .inr rfl

theorem aSide_overflows (h : s.overflows m) (a : Operand) : (aSide a s).2.overflows m :=
  h.congr (bindHandle_bus _ s).1 (bindHandle_bus _ s).2.1

theorem readA_of_overflows (h : s.overflows m) (a : Operand) :
    readA a s = .error (.deviceOverload m) ∨ readA a s = .ok (aValue a s, (aSide a s).2) := by
  have hread : readPlace (aSide a s).1 (aSide a s).2 = .error (.deviceOverload m) ∨
      readPlace (aSide a s).1 (aSide a s).2 = .ok (aValue a s, (aSide a s).2) :=
    readPlace_of_overflows (aSide_overflows h a) _
  rcases hread with hread | hread
  · exact .inl (by rw [readA, readHandle, ← aSide, hread])
  · exact .inr (by rw [readA, readHandle, ← aSide, hread])

/-- With `fq` and `iq` set an INT has an access point whatever its operand: the operand's access, or the enqueue. -/
theorem execInt_of_overflows (h : s.overflows m) (hfq : s.fq = true) (hiq : s.iq = true) (a : Operand) :
    execInt a s = .fault (.deviceOverload m) := by
  rcases readA_of_overflows h a with hread | hread
  · simp only [execInt, hread, outcome]
  · simp [execInt, hread, hfq, hiq, busTurn_of_overflows (aSide_overflows h a), outcome]

end

/-! ## Starts -/

/-- The 257th message before the first cycle ends the start, whether it is raised before the load or after it. -/
theorem State.start_overflow {devices : List Device} {image : List Word} {agents : Agents} {m : Word}
    (h : (raised (agents.beforeLoad ++ agents.afterLoad))[Config.queueCapacity]? = some m) :
    State.start devices image agents = .error (.deviceOverload m) := by
  have hempty : (State.atInit devices agents).queue = [] := rfl
  rw [raised_append] at h
  unfold State.start
  rcases Nat.lt_or_ge Config.queueCapacity (raised agents.beforeLoad).length with hbefore | hafter
  · rw [List.getElem?_append_left hbefore] at h
    rw [busEvents_overflow_of_raised h (by rw [hempty, List.length_nil, Nat.zero_add])]
  · rw [List.getElem?_append_right hafter] at h
    obtain ⟨s1, h1⟩ := busEvents_completes (es := agents.beforeLoad) (s := State.atInit devices agents)
      (by rwa [hempty, List.length_nil, Nat.zero_add])
    obtain ⟨_, hqueue, _⟩ := busEvents_spec h1
    rw [hempty, List.nil_append] at hqueue
    rw [h1]
    exact busEvents_overflow_of_raised h (by rw [hqueue]; exact Nat.add_sub_cancel' hafter)

/-! ## The obligations -/

/-- Settles O13: the fetch gives the word and its next words, and decoding them is rejected before `skipping` is looked at. -/
theorem unsupportedWordFaults : Obligations.UnsupportedWordFaults := by
  intro s s1 hrun hq hint hspells
  obtain ⟨e, hreject⟩ := decode_error_of_spellsNoInstruction (w := s1.mem.word s1.pc)
    (ws := wordsFrom s1.mem (s1.pc + 1) (nextWordCount (s1.mem.word s1.pc))) (wordsFrom_length ..).ge hspells
  rw [step_of_fetch hrun hint (fetch_quiet (quiet_interruptStep hint hq)), wordsFrom, executeOrSkip_of_decode_error hreject]
  rfl

/-- Settles O14: the flags hold step 1 back, and else the queue decides. -/
theorem interruptStepTakesAtMostOneMessage : Obligations.InterruptStepTakesAtMostOneMessage := by
  intro s hq
  refine ⟨interruptStep_of_held hq, fun hskip hiq hempty => ?_, fun m rest hskip hiq hhead => ?_⟩
  · rw [interruptStep_of_free hq hskip hiq, dequeueAndDeliver_of_empty hempty]
  · rw [interruptStep_of_free hq hskip hiq, dequeueAndDeliver_of_head hhead]
    exact deliver_quiet (s := { s with queue := rest }) hq

/-- Settles O15: the state after a delivery is known in full, and the two stack addresses differ. -/
theorem deliveryPushesPcThenA : Obligations.DeliveryPushesPcThenA := by
  intro m s hq
  rw [deliver_quiet hq]
  refine ⟨fun hia => by rw [delivered, if_pos hia], fun hia => ?_⟩
  obtain ⟨hpc, ha, hrest⟩ := delivered_word (m := m) hia
  exact ⟨delivered m s, rfl, hpc, ha, hrest, delivered_of_enabled hia⟩

/-- Settles O16: with `ia = 0` nothing happens; else the device threads' part is that of two pushes. -/
theorem deliveryLeavesTheRestAlone : Obligations.DeliveryLeavesTheRestAlone := by
  intro m s t h
  rcases deliver_spec h with ⟨hia, rfl⟩ | ⟨hia, ht, _, he⟩
  · rw [if_pos hia]
    have he := MemEffect.refl t
    exact ⟨rfl, rfl, rfl, rfl, fun _ _ => rfl, he.surroundingsKept rfl, he.kept⟩
  · rw [if_neg hia]
    have hregs : t.regs = s.regs.set .a m := by rw [ht]
    exact ⟨by rw [ht], by rw [ht], by rw [ht], by rw [ht],
      fun r hr => by rw [State.reg, hregs, Regs.get_set_other _ _ hr, ← State.reg],
      he.surroundingsKept (by rw [ht]), he.kept⟩

/-- Settles O17: the delivery leaves A and `pc` at the two addresses from which RFI pops them. -/
theorem returnUndoesDelivery : Obligations.ReturnUndoesDelivery := by
  intro m a s hq hia
  obtain ⟨t, hdeliver, hpc, ha, _, ht⟩ := (deliveryPushesPcThenA m s hq).2 hia
  have hsp : t.sp = s.sp - 2 := by rw [ht]
  have hpopA : t.mem.word t.sp = s.reg .a := by rw [hsp, ha]
  have hpopPc : t.mem.word (t.sp + 1) = s.pc := by rw [hsp, show s.sp - 2 + 1 = s.sp - 1 by bv_omega, hpc]
  refine ⟨t, _, hdeliver, rfiPopsAThenPc a t (quiet_deliver hdeliver hq), ?_, hpopPc, ?_, ?_, ?_, ?_, ?_, rfl⟩
  · rw [hpopA, ht]
    rfl
  · rw [hsp]
    exact BitVec.sub_add_cancel s.sp 2
  all_goals rw [ht]

/-- Settles O43: the reply writes the ProcessorState field by field, then the memory, then raises the messages; it overwrites what the
operand's access did to `sp`. -/
theorem deviceMayLeaveAnyProcessorState : Obligations.DeviceMayLeaveAnyProcessorState := by
  intro a s g pc sp ex ia skipping writes messages hq hindex hroom
  refine ⟨processorStateActs g pc sp ex ia skipping ++ (writes.map (fun w => .memWrite w.1 w.2) ++ messages.map .interrupt),
    fun rest => ?_⟩
  refine (execHwi_of_next_reply _ rest hq hindex).trans (outcome_next.mpr ?_)
  rw [deviceActions_append (deviceActions_processorState ..), deviceActions_append (deviceActions_memWrites ..)]
  exact deviceActions_interrupts hroom

/-- Settles O56: the core is running until the observer takes its request at the end of the cycle. -/
theorem stopTakesEffectBeforeTheNextFetch : Obligations.StopTakesEffectBeforeTheNextFetch := by
  intro s t h
  obtain ⟨hrun, s1, ws, s2, s3, hint, hfetch, hexec, hend⟩ := step_spec h
  obtain ⟨hstatus, hrequests⟩ := status_before_endCycle hint hfetch hexec
  exact ⟨by rw [endCycle_status hend, hrequests, hstatus, hrun], step_of_stopped⟩

/-- Settles O57: every access point begins with the turn that overflows, and a start with the two lists that do. -/
theorem deviceThreadOverflowEndsTheRun : Obligations.DeviceThreadOverflowEndsTheRun := by
  refine ⟨fun s m => ⟨enqueue_room, fun hfull => enqueue_full hfull.ge⟩, fun s m es more hturn hfull => ?_,
    fun devices image agents m h => State.start_overflow h⟩
  have h : s.overflows m := ⟨es, more, hturn, hfull⟩
  exact ⟨memRead_of_overflows h, memWrite_of_overflows h, execInt_of_overflows h, endCycle_of_overflows h,
    step_of_overflows h⟩

/-- Settles O4: a start's memory is what threads wrote before the load, the image over it, and over that what they wrote after it;
the rest of it is the reset state and the messages raised. -/
theorem invariantHoldsAtReset : Obligations.InvariantHoldsAtReset := by
  refine ⟨⟨rfl, Nat.zero_le _, Nat.zero_le _⟩, fun devices image agents s h => ?started,
    fun devices image messages hfits => ?anyQueue⟩
  case started =>
    obtain ⟨hs, hwf, hcapacity⟩ := State.start_spec h
    obtain ⟨m, hunwritten, hbefore, hloaded, hafter⟩ := State.start_mem h
    have hdevices : s.devices = devices := congrArg State.devices hs
    refine ⟨fun hcount => ⟨hwf, hcapacity, hdevices ▸ hcount⟩, by rw [raised_append, hs], fun k hk w hw hn => ?image,
      fun a hpast hn => ?unwritten, hafter, fun es a v more hsplit hpast hn => ?writtenBeforeLoad,
      fun r => (congrArg (State.reg · r) hs).trans (Regs.get_zero r), congrArg State.pc hs, congrArg State.sp hs,
      congrArg State.ex hs, congrArg State.ia hs, congrArg State.skipping hs, congrArg State.iq hs, congrArg State.fq hs,
      congrArg State.status hs, hdevices⟩
    case image =>
      rw [hloaded _ hn]
      exact Memory.word_bulkSet_inside m hw (by rw [BitVec.toNat_ofNat]; omega)
    case unwritten =>
      rw [hloaded a fun v hv => hn v (List.mem_append_right _ hv), Memory.word_bulkSet_outside m (by omega)]
      exact hunwritten a fun v hv => hn v (List.mem_append_left _ hv)
    case writtenBeforeLoad =>
      rw [hloaded a fun w hw => hn w (List.mem_append_right _ hw), Memory.word_bulkSet_outside m (by omega)]
      exact hbefore es a v more hsplit fun w hw => hn w (List.mem_append_left _ hw)
  case anyQueue =>
    obtain ⟨s, hs⟩ := State.start_completes (devices := devices) (image := image)
      (agents := { afterLoad := messages.map .interrupt }) (by simpa [raised, Config.queueCapacity] using hfits)
    refine ⟨_, s, hs, ?_⟩
    rw [(State.start_spec hs).1]
    exact raised_map_interrupt messages

end Sys2Proof.Machine

/-! SUPPORT. The start of a run at which no device has acted, and the self-jump (70_reset_and_hazards.md R290, R305): a SET of PC whose
source is a literal equal to its own address is a fixed point of the step, in the encoding with a next word and in the inlined one. -/

namespace Sys2Proof.Machine

/-! ## Step 1 and the observer with nothing to do -/

/-- An empty queue leaves step 1 nothing to take, whatever the flags say. -/
theorem interruptStep_of_empty {s : State} (hq : s.quiet) (hempty : s.queue = []) : interruptStep s = .ok s := by
  simp [interruptStep, busTurn_quiet hq, dequeueAndDeliver_of_empty hempty]

theorem observe_of_no_requests {s : State} (h : s.stopRequests = []) : observe s = s := by
  rw [observe, h]

/-! ## A jump to a literal -/

/-- With device threads quiet, a SET of PC from an operand that binds as a literal moves `pc` there and does nothing else. -/
theorem exec_set_pc_of_literal {a : Operand} {v : Word} {s : State} (hq : s.quiet) (ha : aSide a s = (.lit v, s)) :
    exec (.set .pc a) s = .next { s with pc := v } := by
  have hvalue : aValue a s = v := by rw [aValue, ha, placeValue]
  have hwrite : writeB .pc a v s = { (aSide a s).2 with pc := v } := rfl
  rw [setWritesTheSource .pc a s hq, hvalue, hwrite, ha]

/-- Where a SET of PC from a literal equal to its own address stands at `pc`, the step answers the same state, when nothing else has
anything to do. -/
theorem step_of_self_jump {a : Operand} {s : State} {rest : List Word} (hrun : s.status = .running) (hq : s.quiet)
    (hskip : s.skipping = false) (hempty : s.queue = []) (hstop : s.stopRequests = []) (ha : ∀ t, aSide a t = (.lit s.pc, t))
    (hwords : wordsFrom s.mem s.pc 3 = encode (.set .pc a) ++ rest) : step s = .next s := by
  have hdecode : decode (wordsFrom s.mem s.pc 3) = .ok (.set .pc a, rest) := by rw [hwords, decodeInvertsEncode _ rest rfl]
  have hexec : exec (.set .pc a) (pastWords (.set .pc a) s) = .next s := exec_set_pc_of_literal hq (ha _)
  obtain ⟨_, hquiet⟩ := stepRunsTheDecodedInstruction
  rw [hquiet s s _ rest hrun hq (interruptStep_of_empty hq hempty) hdecode, hskip, if_neg Bool.false_ne_true, hexec, mapNext,
    observe_of_no_requests hstop]

theorem encode_set_pc_lit (n : Word) : encode (.set .pc (.lit n)) = [0x7f81, n] :=
  congrArg (· :: [n]) (show BitVec.ofNat 16 (0x1f * 1024 + 0x1c * 32 + 0x01) = 0x7f81 by decide)

theorem encode_set_pc_short (k : BitVec 5) :
    encode (.set .pc (.short k)) = [BitVec.ofNat 16 ((k.toNat + 0x20) * 1024 + 0x0381)] := by
  rw [encode, encodeBasic, Operand.code, Operand.code, Nat.add_comm 0x20, Nat.add_assoc]
  rfl

/-! ## The obligations -/

/-- Settles O1: a silent start is reset with the device set attached and the image loaded over a memory that nobody has written. -/
theorem startStateHoldsImageAndMemInit : Obligations.StartStateHoldsImageAndMemInit := by
  refine ⟨fun devices image => ⟨_, State.start_silent devices image, Regs.get_zero, rfl, rfl, rfl, rfl, rfl, rfl, rfl, rfl, rfl,
    rfl, fun k hk w hw => ?image, fun a hpast => ?unwritten⟩, rfl⟩
  case image => exact Memory.word_bulkSet_inside _ hw (by rw [BitVec.toNat_ofNat]; omega)
  case unwritten =>
    have houtside := Memory.word_bulkSet_outside (offset := 0) (words := image) State.reset.mem (a := a) (by omega)
    exact houtside.trans (Memory.word_unwritten a)

/-- Settles O59: both encodings are a SET of PC from a literal, the next word or the value of the code `k + 0x21`. -/
theorem selfJumpChangesNothing : Obligations.SelfJumpChangesNothing := by
  intro s hrun hq hskip hempty hstop hwords
  rcases hwords with ⟨hword, hnext⟩ | ⟨hk, hword⟩
  case inl =>
    refine step_of_self_jump (a := .lit s.pc) (rest := wordsFrom s.mem (s.pc + 1 + 1) 1) hrun hq hskip hempty hstop
      (fun _ => rfl) ?_
    rw [wordsFrom, wordsFrom, hword, hnext, encode_set_pc_lit]
    rfl
  case inr =>
    obtain ⟨k, hcode⟩ : ∃ k : BitVec 5, k.toNat = s.pc.toNat + 1 :=
      ⟨BitVec.ofNat 5 (s.pc.toNat + 1), by rw [BitVec.toNat_ofNat]; omega⟩
    have hvalue : BitVec.ofNat 16 k.toNat - 1 = s.pc := by
      rw [hcode]
      bv_omega
    refine step_of_self_jump (a := .short k) (rest := wordsFrom s.mem (s.pc + 1) 2) hrun hq hskip hempty hstop
      (fun t => by rw [aSide, bindHandle_short, hvalue]) ?_
    rw [wordsFrom, hword, encode_set_pc_short, hcode, Nat.add_assoc]
    rfl

end Sys2Proof.Machine
